-- ==== Sys2Proof/Word.lean ====
section
/-! DEFINITION. The widths of the machine (00_scope.md R4, R6, R7). -/

namespace Sys2Proof

/-- A memory byte or the contents of a general register. -/
abbrev Byte := BitVec 8

/-- An instruction word, the program counter, `I`, or a return address. -/
abbrev Word := BitVec 16

/-- A four-bit field of an instruction word (30_encoding.md R60). -/
abbrev Nibble := BitVec 4

/-- The twelve-bit immediate address `nnn` (30_encoding.md R60). -/
abbrev Imm12 := BitVec 12

/-- The number of a general register, `V0` to `VF` (10_state.md R11). -/
abbrev Reg := Fin 16

/-- `VF`, the register that doubles as the flag (10_state.md R12). -/
abbrev regVF : Reg := 15

end Sys2Proof
end

