-- ==== Sys2Proof/Config.lean ====
section
/-! DEFINITION. What the hardware fixes once for all (00_scope.md R4) and the one value the spec leaves free, the
bytes of the random source (R5, 10_state.md R26).  The font, also a parameter, is in Machine/Font.lean. -/

namespace Sys2Proof.Config

/-- Bytes of memory (R4 `MEM_SIZE`). -/
abbrev memSize : Nat := 4096

/-- Bytes of the font region, which starts at address 0 (R4 `FONT_BASE`, `FONT_LEN`). -/
abbrev fontLen : Nat := 80

/-- Load address and initial program counter (R4 `PROG_BASE`). -/
abbrev progBase : Nat := 512

/-- Largest program image in bytes (R4 `PROG_MAX`). -/
abbrev progMax : Nat := 3584

/-- Entries of the call stack (R4 `STACK_DEPTH`). -/
abbrev stackDepth : Nat := 16

/-- Framebuffer columns and cells (R4 `FB_W`, `FB_CELLS`). -/
abbrev fbWidth : Nat := 64

/-- Framebuffer cells, row-major (R4 `FB_CELLS`). -/
abbrev fbCells : Nat := 2048

/-- Free value (log 1; 92_eei_decisions.md D13, U5): element `k` of the injected random sequence, the byte that the
`k`-th executed `Cxkk` takes.  It has no body, so whatever is proved holds for every sequence. -/
opaque randByte : Nat → Byte

end Sys2Proof.Config
end

