-- ==== Sys2Proof/Syntax.lean ====
section
/-! DEFINITION. The instructions: one constructor per row of `spec/opcode_table.json` (30_encoding.md R64), the
fallback row for unrecognised words (R66) included.  A field an instruction ignores (R68) is kept, so that no bit of
a word is lost by decoding. -/

namespace Sys2Proof

/-- The 34 recognised instructions and the unrecognised words. -/
inductive Instr where
  /-- `00E0` CLS (R150). -/
  | cls
  /-- `00EE` RET (R100). -/
  | ret
  /-- `1nnn` JP nnn (R101). -/
  | jp (nnn : Imm12)
  /-- `2nnn` CALL nnn (R102). -/
  | call (nnn : Imm12)
  /-- `3xkk` SE Vx, kk (R110). -/
  | seImm (x : Reg) (kk : Byte)
  /-- `4xkk` SNE Vx, kk (R111). -/
  | sneImm (x : Reg) (kk : Byte)
  /-- `5xyn` SE Vx, Vy; `n` is ignored (R112, R68). -/
  | seReg (x y : Reg) (n : Nibble)
  /-- `6xkk` LD Vx, kk (R121). -/
  | ldImm (x : Reg) (kk : Byte)
  /-- `7xkk` ADD Vx, kk (R122). -/
  | addImm (x : Reg) (kk : Byte)
  /-- `8xy0` LD Vx, Vy (R123). -/
  | ldReg (x y : Reg)
  /-- `8xy1` OR Vx, Vy (R124). -/
  | orReg (x y : Reg)
  /-- `8xy2` AND Vx, Vy (R125). -/
  | andReg (x y : Reg)
  /-- `8xy3` XOR Vx, Vy (R126). -/
  | xorReg (x y : Reg)
  /-- `8xy4` ADD Vx, Vy (R127). -/
  | addReg (x y : Reg)
  /-- `8xy5` SUB Vx, Vy (R128). -/
  | subReg (x y : Reg)
  /-- `8xy6` SHR Vx; `y` is ignored (R129, R68). -/
  | shr (x y : Reg)
  /-- `8xy7` SUBN Vx, Vy (R130). -/
  | subnReg (x y : Reg)
  /-- `8xyE` SHL Vx; `y` is ignored (R131, R68). -/
  | shl (x y : Reg)
  /-- `9xyn` SNE Vx, Vy; `n` is ignored (R113, R68). -/
  | sneReg (x y : Reg) (n : Nibble)
  /-- `Annn` LD I, nnn (R140). -/
  | ldI (nnn : Imm12)
  /-- `Bnnn` JP V0, nnn (R103). -/
  | jpV0 (nnn : Imm12)
  /-- `Cxkk` RND Vx, kk (R132). -/
  | rnd (x : Reg) (kk : Byte)
  /-- `Dxyn` DRW Vx, Vy, n (R151). -/
  | drw (x y : Reg) (n : Nibble)
  /-- `Ex9E` SKP Vx (R160). -/
  | skp (x : Reg)
  /-- `ExA1` SKNP Vx (R161). -/
  | sknp (x : Reg)
  /-- `Fx07` LD Vx, DT (R163). -/
  | ldVxDT (x : Reg)
  /-- `Fx0A` LD Vx, K (R162). -/
  | ldVxK (x : Reg)
  /-- `Fx15` LD DT, Vx (R164). -/
  | ldDTVx (x : Reg)
  /-- `Fx18` LD ST, Vx (R165). -/
  | ldSTVx (x : Reg)
  /-- `Fx1E` ADD I, Vx (R141). -/
  | addIVx (x : Reg)
  /-- `Fx29` LD F, Vx (R142). -/
  | ldFVx (x : Reg)
  /-- `Fx33` LD B, Vx (R143). -/
  | ldBVx (x : Reg)
  /-- `Fx55` LD [I], Vx (R144). -/
  | ldMemVx (x : Reg)
  /-- `Fx65` LD Vx, [I] (R145). -/
  | ldVxMem (x : Reg)
  /-- `NOP.u`: an unrecognised word, kept whole (R66, R67). -/
  | nopU (w : Word)
  deriving DecidableEq, Repr

end Sys2Proof
end

