-- ==== Sys2Proof/WellFormed.lean ====
section
/-! DEFINITION. When a term of `Instr` stands for an instruction word.  Register numbers and immediates are right by
their types; what is left to check is that a `nopU` holds a word of one of the four unrecognised sets of
30_encoding.md R67. -/

namespace Sys2Proof

/-- The four sets of R67, written from its table and not from the decoder. -/
def unrecognised (w : Word) : Bool :=
  let op := w.toNat / 4096
  let n := w.toNat % 16
  let kk := w.toNat % 256
  if op = 0x0 then w.toNat != 0x00E0 && w.toNat != 0x00EE
  else if op = 0x8 then [0x8, 0x9, 0xA, 0xB, 0xC, 0xD, 0xF].contains n
  else if op = 0xE then kk != 0x9E && kk != 0xA1
  else if op = 0xF then !([0x07, 0x0A, 0x15, 0x18, 0x1E, 0x29, 0x33, 0x55, 0x65].contains kk)
  else false

/-- A term is well formed unless it is a `nopU` of a recognised word. -/
def Instr.wellFormed : Instr → Bool
  | .nopU w => unrecognised w
  | .cls | .ret | .jp _ | .call _ | .seImm _ _ | .sneImm _ _ | .seReg _ _ _ | .ldImm _ _ | .addImm _ _
  | .ldReg _ _ | .orReg _ _ | .andReg _ _ | .xorReg _ _ | .addReg _ _ | .subReg _ _ | .shr _ _ | .subnReg _ _
  | .shl _ _ | .sneReg _ _ _ | .ldI _ | .jpV0 _ | .rnd _ _ | .drw _ _ _ | .skp _ | .sknp _ | .ldVxDT _ | .ldVxK _
  | .ldDTVx _ | .ldSTVx _ | .addIVx _ | .ldFVx _ | .ldBVx _ | .ldMemVx _ | .ldVxMem _ => true

end Sys2Proof
end

