-- ==== Sys2Proof/Decode.lean ====
section
/-! DEFINITION. Decoding and encoding (30_encoding.md R60 to R68).  `decode` is total on words, `decodeBytes` is total
on bytes and refuses by name, `encode` lays an instruction out again, and `opcodeTable` is R64's table as data. -/

namespace Sys2Proof

/-! ## Fields of the instruction word (R60) -/

/-- `op = bits[15:12]`. -/
def fieldOp (w : Word) : Nibble := w.extractLsb' 12 4

/-- `x = bits[11:8]`, a register number. -/
def fieldX (w : Word) : Reg := (w.extractLsb' 8 4).toFin

/-- `y = bits[7:4]`, a register number. -/
def fieldY (w : Word) : Reg := (w.extractLsb' 4 4).toFin

/-- `n = bits[3:0]`. -/
def fieldN (w : Word) : Nibble := w.extractLsb' 0 4

/-- `kk = bits[7:0]`. -/
def fieldKK (w : Word) : Byte := w.extractLsb' 0 8

/-- `nnn = bits[11:0]`. -/
def fieldNNN (w : Word) : Imm12 := w.extractLsb' 0 12

/-! ## Decoding (R63 to R67) -/

/-- Secondary dispatch of `op = 0`: full opcode equality (R63). -/
def decode0 (w : Word) : Instr :=
  if w = 0x00E0#16 then .cls
  else if w = 0x00EE#16 then .ret
  else .nopU w

/-- Secondary dispatch of `op = 8` on `n` (R63, R64). -/
def decode8 (w : Word) : Instr :=
  let x := fieldX w
  let y := fieldY w
  let n := fieldN w
  if n = 0x0#4 then .ldReg x y
  else if n = 0x1#4 then .orReg x y
  else if n = 0x2#4 then .andReg x y
  else if n = 0x3#4 then .xorReg x y
  else if n = 0x4#4 then .addReg x y
  else if n = 0x5#4 then .subReg x y
  else if n = 0x6#4 then .shr x y
  else if n = 0x7#4 then .subnReg x y
  else if n = 0xE#4 then .shl x y
  else .nopU w

/-- Secondary dispatch of `op = E` on `kk` (R63, R64). -/
def decodeE (w : Word) : Instr :=
  let x := fieldX w
  let kk := fieldKK w
  if kk = 0x9E#8 then .skp x
  else if kk = 0xA1#8 then .sknp x
  else .nopU w

/-- Secondary dispatch of `op = F` on `kk` (R63, R64). -/
def decodeF (w : Word) : Instr :=
  let x := fieldX w
  let kk := fieldKK w
  if kk = 0x07#8 then .ldVxDT x
  else if kk = 0x0A#8 then .ldVxK x
  else if kk = 0x15#8 then .ldDTVx x
  else if kk = 0x18#8 then .ldSTVx x
  else if kk = 0x1E#8 then .addIVx x
  else if kk = 0x29#8 then .ldFVx x
  else if kk = 0x33#8 then .ldBVx x
  else if kk = 0x55#8 then .ldMemVx x
  else if kk = 0x65#8 then .ldVxMem x
  else .nopU w

/-- The instruction a word stands for: primary dispatch on `op` (R63), total on all 65536 words (R65). -/
def decode (w : Word) : Instr :=
  let op := fieldOp w
  if op = 0x0#4 then decode0 w
  else if op = 0x1#4 then .jp (fieldNNN w)
  else if op = 0x2#4 then .call (fieldNNN w)
  else if op = 0x3#4 then .seImm (fieldX w) (fieldKK w)
  else if op = 0x4#4 then .sneImm (fieldX w) (fieldKK w)
  else if op = 0x5#4 then .seReg (fieldX w) (fieldY w) (fieldN w)
  else if op = 0x6#4 then .ldImm (fieldX w) (fieldKK w)
  else if op = 0x7#4 then .addImm (fieldX w) (fieldKK w)
  else if op = 0x8#4 then decode8 w
  else if op = 0x9#4 then .sneReg (fieldX w) (fieldY w) (fieldN w)
  else if op = 0xA#4 then .ldI (fieldNNN w)
  else if op = 0xB#4 then .jpV0 (fieldNNN w)
  else if op = 0xC#4 then .rnd (fieldX w) (fieldKK w)
  else if op = 0xD#4 then .drw (fieldX w) (fieldY w) (fieldN w)
  else if op = 0xE#4 then decodeE w
  else decodeF w

/-- Why bytes do not start with an instruction: the decoder's only refusal, since every word decodes (R65, R66). -/
inductive DecodeError where
  /-- Fewer than the two bytes of an instruction word (R60). -/
  | truncated
  deriving DecidableEq, Repr

/-- A word from its two bytes, the byte at the lower address in bits [15:8] (20_memory.md R46). -/
def wordOfBytes (hi lo : Byte) : Word := hi ++ lo

/-- Decode the first instruction of a byte sequence and give back the bytes after it. -/
def decodeBytes : List Byte → Except DecodeError (Instr × List Byte)
  | hi :: lo :: rest => .ok (decode (wordOfBytes hi lo), rest)
  | [] | [_] => .error .truncated

/-! ## Encoding (R60, R64) -/

/-- A register number as a field. -/
def regField (r : Reg) : Nibble := BitVec.ofFin r

/-- `op x y n` (R60 nibble view). -/
def encodeXYN (op : Nibble) (x y : Reg) (n : Nibble) : Word := op ++ regField x ++ regField y ++ n

/-- `op x kk` (R60 byte view). -/
def encodeXKK (op : Nibble) (x : Reg) (kk : Byte) : Word := op ++ regField x ++ kk

/-- `op nnn` (R60 address view). -/
def encodeNNN (op : Nibble) (nnn : Imm12) : Word := op ++ nnn

/-- The word of an instruction, from the patterns of R64. -/
def encode : Instr → Word
  | .cls => 0x00E0#16
  | .ret => 0x00EE#16
  | .jp nnn => encodeNNN 0x1#4 nnn
  | .call nnn => encodeNNN 0x2#4 nnn
  | .seImm x kk => encodeXKK 0x3#4 x kk
  | .sneImm x kk => encodeXKK 0x4#4 x kk
  | .seReg x y n => encodeXYN 0x5#4 x y n
  | .ldImm x kk => encodeXKK 0x6#4 x kk
  | .addImm x kk => encodeXKK 0x7#4 x kk
  | .ldReg x y => encodeXYN 0x8#4 x y 0x0#4
  | .orReg x y => encodeXYN 0x8#4 x y 0x1#4
  | .andReg x y => encodeXYN 0x8#4 x y 0x2#4
  | .xorReg x y => encodeXYN 0x8#4 x y 0x3#4
  | .addReg x y => encodeXYN 0x8#4 x y 0x4#4
  | .subReg x y => encodeXYN 0x8#4 x y 0x5#4
  | .shr x y => encodeXYN 0x8#4 x y 0x6#4
  | .subnReg x y => encodeXYN 0x8#4 x y 0x7#4
  | .shl x y => encodeXYN 0x8#4 x y 0xE#4
  | .sneReg x y n => encodeXYN 0x9#4 x y n
  | .ldI nnn => encodeNNN 0xA#4 nnn
  | .jpV0 nnn => encodeNNN 0xB#4 nnn
  | .rnd x kk => encodeXKK 0xC#4 x kk
  | .drw x y n => encodeXYN 0xD#4 x y n
  | .skp x => encodeXKK 0xE#4 x 0x9E#8
  | .sknp x => encodeXKK 0xE#4 x 0xA1#8
  | .ldVxDT x => encodeXKK 0xF#4 x 0x07#8
  | .ldVxK x => encodeXKK 0xF#4 x 0x0A#8
  | .ldDTVx x => encodeXKK 0xF#4 x 0x15#8
  | .ldSTVx x => encodeXKK 0xF#4 x 0x18#8
  | .addIVx x => encodeXKK 0xF#4 x 0x1E#8
  | .ldFVx x => encodeXKK 0xF#4 x 0x29#8
  | .ldBVx x => encodeXKK 0xF#4 x 0x33#8
  | .ldMemVx x => encodeXKK 0xF#4 x 0x55#8
  | .ldVxMem x => encodeXKK 0xF#4 x 0x65#8
  | .nopU w => w

/-- The bytes of an instruction in memory, high byte first (20_memory.md R46). -/
def encodeBytes (i : Instr) : List Byte := [(encode i).extractLsb' 8 8, (encode i).extractLsb' 0 8]

/-! ## The opcode table as data (R64) -/

/-- One row of R64: a word matches it when `(iw and mask) = pattern`. -/
structure OpcodeRow where
  pattern : Word
  mask : Word
  deriving DecidableEq, Repr

/-- `iw` matches the row (R64). -/
def rowMatches (r : OpcodeRow) (iw : Word) : Bool := iw &&& r.mask == r.pattern

/-- The row of R64 an instruction belongs to, the fallback row of mask 0 for an unrecognised word (R65). -/
def opcodeRow : Instr → OpcodeRow
  | .cls => ⟨0x00E0#16, 0xFFFF#16⟩
  | .ret => ⟨0x00EE#16, 0xFFFF#16⟩
  | .jp _ => ⟨0x1000#16, 0xF000#16⟩
  | .call _ => ⟨0x2000#16, 0xF000#16⟩
  | .seImm _ _ => ⟨0x3000#16, 0xF000#16⟩
  | .sneImm _ _ => ⟨0x4000#16, 0xF000#16⟩
  | .seReg _ _ _ => ⟨0x5000#16, 0xF000#16⟩
  | .ldImm _ _ => ⟨0x6000#16, 0xF000#16⟩
  | .addImm _ _ => ⟨0x7000#16, 0xF000#16⟩
  | .ldReg _ _ => ⟨0x8000#16, 0xF00F#16⟩
  | .orReg _ _ => ⟨0x8001#16, 0xF00F#16⟩
  | .andReg _ _ => ⟨0x8002#16, 0xF00F#16⟩
  | .xorReg _ _ => ⟨0x8003#16, 0xF00F#16⟩
  | .addReg _ _ => ⟨0x8004#16, 0xF00F#16⟩
  | .subReg _ _ => ⟨0x8005#16, 0xF00F#16⟩
  | .shr _ _ => ⟨0x8006#16, 0xF00F#16⟩
  | .subnReg _ _ => ⟨0x8007#16, 0xF00F#16⟩
  | .shl _ _ => ⟨0x800E#16, 0xF00F#16⟩
  | .sneReg _ _ _ => ⟨0x9000#16, 0xF000#16⟩
  | .ldI _ => ⟨0xA000#16, 0xF000#16⟩
  | .jpV0 _ => ⟨0xB000#16, 0xF000#16⟩
  | .rnd _ _ => ⟨0xC000#16, 0xF000#16⟩
  | .drw _ _ _ => ⟨0xD000#16, 0xF000#16⟩
  | .skp _ => ⟨0xE09E#16, 0xF0FF#16⟩
  | .sknp _ => ⟨0xE0A1#16, 0xF0FF#16⟩
  | .ldVxDT _ => ⟨0xF007#16, 0xF0FF#16⟩
  | .ldVxK _ => ⟨0xF00A#16, 0xF0FF#16⟩
  | .ldDTVx _ => ⟨0xF015#16, 0xF0FF#16⟩
  | .ldSTVx _ => ⟨0xF018#16, 0xF0FF#16⟩
  | .addIVx _ => ⟨0xF01E#16, 0xF0FF#16⟩
  | .ldFVx _ => ⟨0xF029#16, 0xF0FF#16⟩
  | .ldBVx _ => ⟨0xF033#16, 0xF0FF#16⟩
  | .ldMemVx _ => ⟨0xF055#16, 0xF0FF#16⟩
  | .ldVxMem _ => ⟨0xF065#16, 0xF0FF#16⟩
  | .nopU _ => ⟨0x0000#16, 0x0000#16⟩

/-- The 34 rows of R64, without the fallback row. -/
def opcodeTable : List OpcodeRow :=
  [⟨0x00E0#16, 0xFFFF#16⟩, ⟨0x00EE#16, 0xFFFF#16⟩, ⟨0x1000#16, 0xF000#16⟩, ⟨0x2000#16, 0xF000#16⟩,
   ⟨0x3000#16, 0xF000#16⟩, ⟨0x4000#16, 0xF000#16⟩, ⟨0x5000#16, 0xF000#16⟩, ⟨0x6000#16, 0xF000#16⟩,
   ⟨0x7000#16, 0xF000#16⟩, ⟨0x8000#16, 0xF00F#16⟩, ⟨0x8001#16, 0xF00F#16⟩, ⟨0x8002#16, 0xF00F#16⟩] ++
  [⟨0x8003#16, 0xF00F#16⟩, ⟨0x8004#16, 0xF00F#16⟩, ⟨0x8005#16, 0xF00F#16⟩, ⟨0x8006#16, 0xF00F#16⟩,
   ⟨0x8007#16, 0xF00F#16⟩, ⟨0x800E#16, 0xF00F#16⟩, ⟨0x9000#16, 0xF000#16⟩, ⟨0xA000#16, 0xF000#16⟩,
   ⟨0xB000#16, 0xF000#16⟩, ⟨0xC000#16, 0xF000#16⟩, ⟨0xD000#16, 0xF000#16⟩, ⟨0xE09E#16, 0xF0FF#16⟩] ++
  [⟨0xE0A1#16, 0xF0FF#16⟩, ⟨0xF007#16, 0xF0FF#16⟩, ⟨0xF00A#16, 0xF0FF#16⟩, ⟨0xF015#16, 0xF0FF#16⟩,
   ⟨0xF018#16, 0xF0FF#16⟩, ⟨0xF01E#16, 0xF0FF#16⟩, ⟨0xF029#16, 0xF0FF#16⟩, ⟨0xF033#16, 0xF0FF#16⟩,
   ⟨0xF055#16, 0xF0FF#16⟩, ⟨0xF065#16, 0xF0FF#16⟩]

/-! ## The table's numbering of bits -/

/-- The bytes of an instruction whose bits are `w`, bit 0 the least significant bit of its (only) word and every bit
from `nbits` up 0, as the hardware stores them. -/
def tableBytes (nbits w : Nat) : List Byte :=
  let v := w % 2 ^ nbits
  [BitVec.ofNat 8 (v / 256), BitVec.ofNat 8 v]

/-- The instruction `decodeBytes` reads from those bytes. -/
def decodeTableWord (nbits w : Nat) : Option Instr :=
  match decodeBytes (tableBytes nbits w) with
  | .ok (i, _) => some i
  | .error _ => none

end Sys2Proof
end

