-- ==== Sys2Proof/Machine/Font.lean ====
section
/-! DEFINITION. The default of the `FONT` parameter (20_memory.md R45, 92_eei_decisions.md D15): the conventional
hexadecimal font, 16 glyphs of 5 bytes.  PRESUMED (log 2): the spec marks these bytes as general knowledge. -/

namespace Sys2Proof.Machine

/-- The 80 bytes of R45's table, glyph `d` at `5 d`. -/
def fontTable : List Byte :=
  [0xF0, 0x90, 0x90, 0x90, 0xF0, 0x20, 0x60, 0x20, 0x20, 0x70, 0xF0, 0x10, 0xF0, 0x80, 0xF0, 0xF0, 0x10, 0xF0, 0x10, 0xF0] ++
  [0x90, 0x90, 0xF0, 0x10, 0x10, 0xF0, 0x80, 0xF0, 0x10, 0xF0, 0xF0, 0x80, 0xF0, 0x90, 0xF0, 0xF0, 0x10, 0x20, 0x40, 0x40] ++
  [0xF0, 0x90, 0xF0, 0x90, 0xF0, 0xF0, 0x90, 0xF0, 0x10, 0xF0, 0xF0, 0x90, 0xF0, 0x90, 0x90, 0xE0, 0x90, 0xE0, 0x90, 0xE0] ++
  [0xF0, 0x80, 0x80, 0x80, 0xF0, 0xE0, 0x90, 0x90, 0x90, 0xE0, 0xF0, 0x80, 0xF0, 0x80, 0xF0, 0xF0, 0x80, 0xF0, 0x80, 0x80]

/-- Byte `a` of the default font; 0 past its 80 bytes. -/
def fontByte (a : Nat) : Byte := fontTable.getD a 0#8

end Sys2Proof.Machine
end

