-- ==== Sys2Proof/Machine/Memory.lean ====
section
/-! DEFINITION. `MEM`: 4096 bytes (20_memory.md R40 to R53), held as the list of the bytes that differ from the
power-on contents (log 8), and the access primitives `MemRead` and `MemWrite` of R41 and R42. -/

namespace Sys2Proof.Machine

/-- (address, byte) pairs, addresses strictly rising, no pair that an unlisted address would read as anyway. -/
abbrev Memory := List Host.Cell

/-- What an unlisted address reads as: the power-on contents, `FONT` at [0,80) and 0 elsewhere (20_memory.md R45,
10_state.md R27). -/
def Memory.initByte (a : Nat) : Byte := if a < Config.fontLen then fontByte a else 0#8

/-- The effective address of any access: reduced modulo 4096 (R41, R43). -/
def Memory.wrap (addr : Nat) : Nat := addr % Config.memSize

/-- The byte listed at `a`, else the power-on byte. -/
def Memory.lookup : Memory → Nat → Byte
  | [], a => Memory.initByte a
  | (k, b) :: rest, a => if k = a then b else Memory.lookup rest a

/-- `MemRead(addr, 1)` (R41), `addr` any natural. -/
def Memory.read (m : Memory) (addr : Nat) : Byte := Memory.lookup m (Memory.wrap addr)

/-- `MemRead(addr, 2)` (R41): each byte's address reduced by itself, first byte most significant. -/
def Memory.readWord (m : Memory) (addr : Nat) : Word := wordOfBytes (Memory.read m addr) (Memory.read m (addr + 1))

/-- Take the entry at `a` out of the list. -/
def Memory.erase : Memory → Nat → Memory
  | [], _ => []
  | (k, b) :: rest, a => if k = a then Memory.erase rest a else (k, b) :: Memory.erase rest a

/-- Put an entry for `a` before the first greater address. -/
def Memory.insert : Memory → Nat → Byte → Memory
  | [], a, v => [(a, v)]
  | (k, b) :: rest, a, v => if a < k then (a, v) :: (k, b) :: rest else (k, b) :: Memory.insert rest a v

/-- Make the byte at `a` be `v`, in canonical form: the power-on byte is not listed. -/
def Memory.store (m : Memory) (a : Nat) (v : Byte) : Memory :=
  if v = Memory.initByte a then Memory.erase m a else Memory.insert (Memory.erase m a) a v

/-- `MemWrite(addr, 1, v)` (R42). -/
def Memory.write (m : Memory) (addr : Nat) (v : Byte) : Memory := Memory.store m (Memory.wrap addr) v

/-- `MemWrite(addr, n, v)` for the bytes of `v` from the most significant (R42), any number of them. -/
def Memory.writeBytes (m : Memory) (addr : Nat) : List Byte → Memory
  | [] => m
  | b :: rest => Memory.writeBytes (Memory.write m addr b) (addr + 1) rest

/-- Every byte outside the font region back to 0 and the font region as it is (70_reset_and_hazards.md R191). -/
def Memory.clearAboveFont (m : Memory) : Memory := m.filter fun c => decide (c.1 < Config.fontLen)

/-- The canonical form from a lower bound on the addresses: strictly rising, below 4096, nothing listed that an
unlisted address reads as. -/
def Memory.wfFrom : Nat → Memory → Bool
  | _, [] => true
  | lo, (k, b) :: rest =>
    decide (lo ≤ k) && decide (k < Config.memSize) && decide (b ≠ Memory.initByte k) && Memory.wfFrom (k + 1) rest

/-- The canonical form of memory. -/
def Memory.wf (m : Memory) : Bool := Memory.wfFrom 0 m

end Sys2Proof.Machine
end

