-- ==== Sys2Proof/Machine/State.lean ====
section
/-! DEFINITION. The state of the machine: every piece that 10_state.md R10 lists ("there is nothing else"), and the
position in the injected random stream that R10 and R26 allow a model to hold. -/

namespace Sys2Proof.Machine

/-- The conditions `raise` can record (00_scope.md R7, 60_exceptions.md R170, R171).  Both complete as no-ops with a
record in `ERR`, so no step ever ENDS in a fault: `step` answers a next state in every state.  A closed type. -/
inductive Fault where
  /-- `2nnn` with 16 return addresses on the stack.  Raised by `execCall` through `State.raise`; safe: the machine goes
  on exactly as R102 says. -/
  | stackOverflow
  /-- `00EE` with an empty stack.  Raised by `execRet` through `State.raise`; safe: the machine goes on exactly as R100
  says. -/
  | stackUnderflow
  deriving DecidableEq, Repr

/-- Reasons for giving an instruction no meaning.  A closed type. -/
inductive Refusal where
  /-- An instruction that the model does not model, by its mnemonic.  Only an arm of `exec` may answer it; no arm does.
  Safe: the machine stops where the hardware goes on. -/
  | notModelled (mnemonic : String)
  deriving DecidableEq, Repr

/-- The framebuffer's cells: 32 rows of 64 one-bit columns, column `j` of a row in bit `j` (10_state.md R18, log 8). -/
abbrev Picture := Vector (BitVec 64) 32

/-- The complete state of the core (10_state.md R10). -/
structure State where
  /-- `V[0..15]`, the general registers (R11); `V[15]` is the flag (R12). -/
  v : Vector Byte 16
  /-- `I`, the index register (R14). -/
  index : Word
  /-- `PC` (R13). -/
  pc : Word
  /-- `STACK[0..15]` (R15); the slots at `SP` and above are stale (R25, log 5). -/
  stack : Vector Word 16
  /-- `SP`, the number of live stack entries, 0 to 16 (R15). -/
  sp : Fin 17
  /-- `DT`, the delay timer (R16). -/
  dt : Byte
  /-- `ST`, the sound timer (R17). -/
  st : Byte
  /-- `FB`; cell `c` is column `c mod 64` of row `c div 64` (R18). -/
  fb : Picture
  /-- `DRAW` (R19). -/
  draw : Bool
  /-- `KEY`, bit `k` is key `k` (R20). -/
  key : BitVec 16
  /-- `ERR`, bit 0 overflow and bit 1 underflow, sticky (R21). -/
  err : BitVec 2
  /-- `MEM`, over its power-on contents (R22). -/
  mem : Memory
  /-- The model's own field: how many bytes have been drawn from the random stream (R26, log 1). -/
  draws : Nat
  deriving DecidableEq, Repr

/-- The state after power-on with the default font, which is also the state after `reset()` from there
(10_state.md R27, 70_reset_and_hazards.md R190, R192). -/
def State.reset : State where
  v := Vector.replicate 16 0#8
  index := 0#16
  pc := 512#16
  stack := Vector.replicate 16 0#16
  sp := 0
  dt := 0#8
  st := 0#8
  fb := Vector.replicate 32 0#64
  draw := false
  key := 0#16
  err := 0#2
  mem := []
  draws := 0

end Sys2Proof.Machine
end

