-- ==== Sys2Proof/Machine/Ops.lean ====
section
/-! DEFINITION. The named operations over the state: registers, program counter, call stack, framebuffer, keys,
memory, fetching a word, and recording a fault.  Nothing here traps, so there is no return from an exception beside
`State.raise` (60_exceptions.md R185). -/

namespace Sys2Proof.Machine

/-! ## Registers -/

/-- `V[r]` (10_state.md R11). -/
def State.readV (s : State) (r : Reg) : Byte := s.v[r]

/-- `V[r] <- b` (10_state.md R11). -/
def State.writeV (s : State) (r : Reg) (b : Byte) : State := { s with v := s.v.set r b }

/-- Result to `V[x]`, then flag to `V[15]`: the flag is the last write (42_alu.md R120). -/
def State.writeWithFlag (s : State) (x : Reg) (result : Byte) (flag : Byte) : State :=
  (s.writeV x result).writeV regVF flag

/-- `I <- w` (10_state.md R14). -/
def State.setIndex (s : State) (w : Word) : State := { s with index := w }

/-- `DT <- b` (10_state.md R16). -/
def State.setDT (s : State) (b : Byte) : State := { s with dt := b }

/-- `ST <- b` (10_state.md R17). -/
def State.setST (s : State) (b : Byte) : State := { s with st := b }

/-! ## Program counter (10_state.md R13) -/

/-- `PC <- w`. -/
def State.setPC (s : State) (w : Word) : State := { s with pc := w }

/-- Advance by one instruction, modulo 65536: the step's own advance (30_encoding.md R61) and a taken skip
(41_skip.md). -/
def State.advance (s : State) : State := s.setPC (s.pc + 2#16)

/-- Skip the next instruction when the condition holds (41_skip.md, 45_keypad_timers.md R160, R161). -/
def State.skipIf (s : State) (c : Bool) : State := if c then s.advance else s

/-- Go back to the executing instruction, `PC <- (npc - 2) mod 65536` (45_keypad_timers.md R162). -/
def State.stepBack (s : State) : State := s.setPC (s.pc - 2#16)

/-! ## Faults -/

/-- The bit of `ERR` that records a fault (60_exceptions.md R172). -/
def errBit : Fault → BitVec 2
  | .stackOverflow => 0b01#2
  | .stackUnderflow => 0b10#2

/-- `raise <Fault>` (00_scope.md R7, 60_exceptions.md R171): set the sticky bit and change nothing else.  This is all
the exception handling the machine has; `PC` stays at `npc`. -/
def State.raise (s : State) (f : Fault) : State := { s with err := s.err ||| errBit f }

/-! ## Call stack (10_state.md R15) -/

/-- Push a return address, or record the overflow; `k` is what the caller does after a push. -/
def State.pushThen (s : State) (w : Word) (k : State → State) : State :=
  if h : s.sp.val < 16 then
    k { s with stack := s.stack.set s.sp.val w, sp := ⟨s.sp.val + 1, by omega⟩ }
  else s.raise .stackOverflow

/-- Pop a return address and hand it on, or record the underflow. -/
def State.popThen (s : State) (k : Word → State → State) : State :=
  if h : 0 < s.sp.val then
    k (s.stack[s.sp.val - 1]'(by omega)) { s with sp := ⟨s.sp.val - 1, by omega⟩ }
  else s.raise .stackUnderflow

/-! ## Framebuffer and keys -/

/-- Row `r` of a picture; there are no cells past row 31. -/
def pictureRow (fb : Picture) (r : Nat) : BitVec 64 := if h : r < 32 then fb[r] else 0#64

/-- Cell `c` of a picture: column `c mod 64` of row `c div 64` (10_state.md R18). -/
def pictureCell (fb : Picture) (c : Nat) : Bool := (pictureRow fb (c / 64)).getLsbD (c % 64)

/-- `FB[c]` (10_state.md R18). -/
def State.cell (s : State) (c : Nat) : Bool := pictureCell s.fb c

/-- Cell `c` xor 1, for `c` below 2048 (44_display.md R151). -/
def flipCell (fb : Picture) (c : Nat) : Picture :=
  if h : c / 64 < 32 then fb.set (c / 64) (fb[c / 64] ^^^ (1#64 <<< (c % 64))) else fb

/-- The picture with every cell 0 (44_display.md R150). -/
def blankPicture : Picture := Vector.replicate 32 0#64

/-- Put a picture into `FB` and set the draw flag, as every clear and draw does (10_state.md R19). -/
def State.show (s : State) (fb : Picture) : State := { s with fb := fb, draw := true }

/-- `KEY[k]` (10_state.md R20). -/
def State.keyDown (s : State) (k : Nat) : Bool := s.key.getLsbD k

/-- The least pressed key in scan order 0 to 15, if any (45_keypad_timers.md R162). -/
def State.firstKey (s : State) : Option Nat := (List.range 16).find? s.keyDown

/-! ## Memory -/

/-- `MemRead(I + k, 1)` (20_memory.md R43): `I + k` on naturals, reduced when memory is reached. -/
def State.readAtIndex (s : State) (k : Nat) : Byte := Memory.read s.mem (s.index.toNat + k)

/-- Bytes to `I`, `I + 1`, ... (20_memory.md R42, R43). -/
def State.writeAtIndex (s : State) (bs : List Byte) : State :=
  { s with mem := Memory.writeBytes s.mem s.index.toNat bs }

/-! ## Random source -/

/-- `RandByte()`: the next element of the injected sequence (10_state.md R26, log 1). -/
def State.randByte (s : State) : Byte := Config.randByte s.draws

/-- One draw consumed. -/
def State.consumeDraw (s : State) : State := { s with draws := s.draws + 1 }

/-! ## Fetch -/

/-- `iw = MemRead(PC, 2)` (30_encoding.md R61). -/
def State.fetch (s : State) : Word := Memory.readWord s.mem s.pc.toNat

/-- Bytes placed at the address the next fetch reads. -/
def State.placeAtPC (s : State) (bs : List Byte) : State := { s with mem := Memory.writeBytes s.mem s.pc.toNat bs }

end Sys2Proof.Machine
end

