-- ==== Sys2Proof/Machine/Flags.lean ====
section
/-! DEFINITION. The values written to `VF` as a side effect (10_state.md R12), each computed from the operands as they
were before the instruction (42_alu.md R120). -/

namespace Sys2Proof.Machine

/-- A flag is 0 or 1, zero-extended to a register (R12). -/
def flagByte (b : Bool) : Byte := if b then 1#8 else 0#8

/-- Carry of `8xy4`: the exact sum is above 255 (R127). -/
def carryFlag (a b : Byte) : Byte := flagByte (decide (255 < a.toNat + b.toNat))

/-- No borrow of `a - b`: `a >= b` (R128; R130 with the roles exchanged). -/
def noBorrowFlag (a b : Byte) : Byte := flagByte (decide (b.toNat ≤ a.toNat))

/-- The bit that `8xy6` shifts out, bit 0 (R129). -/
def lowBitFlag (a : Byte) : Byte := flagByte (a.getLsbD 0)

/-- The bit that `8xyE` shifts out, bit 7 (R131). -/
def highBitFlag (a : Byte) : Byte := flagByte (a.getLsbD 7)

end Sys2Proof.Machine
end

