-- ==== Sys2Proof/Machine/Operands.lean ====
section
/-! DEFINITION. How operands are formed from fields and registers (30_encoding.md R62 and the family files). -/

namespace Sys2Proof.Machine

/-- `zext_16(nnn)`, an absolute address (R62). -/
def target12 (nnn : Imm12) : Word := nnn.zeroExtend 16

/-- `zext_16` of a register, for `Bnnn` and `Fx1E` (R103, R141). -/
def zext16 (b : Byte) : Word := b.zeroExtend 16

/-- The digit or key a register names: its low nibble (R142, R160). -/
def lowNibble (b : Byte) : Nat := (b &&& 0x0F#8).toNat

/-- The address of the font glyph of a digit (R142). -/
def glyphAddress (b : Byte) : Word := BitVec.ofNat 16 (5 * lowNibble b)

/-- Hundreds, tens and units of a byte (R143). -/
def bcdDigits (b : Byte) : List Byte :=
  [BitVec.ofNat 8 (b.toNat / 100), BitVec.ofNat 8 (b.toNat / 10 % 10), BitVec.ofNat 8 (b.toNat % 10)]

/-- `V[0]` to `V[x]`, in order (R144). -/
def State.regsUpTo (s : State) (x : Reg) : List Byte := s.v.toList.take (x.val + 1)

/-- The register file with `V[0]` to `V[x]` read from `I`, `I + 1`, ... and the others as they were (R145). -/
def State.loadedRegs (s : State) (x : Reg) : Vector Byte 16 :=
  Vector.ofFn fun k => if k ≤ x then s.readAtIndex k.val else s.readV k

/-- `Target(vx, vy, row, col)` on naturals (44_display.md R152). -/
def targetCell (vx vy row col : Nat) : Nat := ((vx + col) + (vy + row) * Config.fbWidth) % Config.fbCells

end Sys2Proof.Machine
end

