-- ==== Sys2Proof/Machine/Display.lean ====
section
/-! DEFINITION. Framebuffer clear and sprite draw (44_display.md). -/

namespace Sys2Proof.Machine

/-- A picture being drawn and the collision seen so far. -/
abbrev Canvas := Picture × Bool

/-- One pixel: a set sprite bit flips cell `t` and collides when the cell was 1 (R151). -/
def drawPixel (on : Bool) (t : Nat) (p : Canvas) : Canvas :=
  if on then (flipCell p.1 t, p.2 || pictureCell p.1 t) else p

/-- The pixels of one sprite row from column `col` on, most significant bit first; `k` columns are left. -/
def drawRow (vx vy row : Nat) (b : Byte) : Nat → Nat → Canvas → Canvas
  | _, 0, p => p
  | col, k + 1, p =>
    drawRow vx vy row b (col + 1) k (drawPixel (b.getLsbD (7 - col)) (targetCell vx vy row col) p)

/-- The rows of a sprite from row `row` on; `k` rows are left and `sprite` gives the byte of each row (R151). -/
def drawRows (vx vy : Nat) (sprite : Nat → Byte) : Nat → Nat → Canvas → Canvas
  | _, 0, p => p
  | row, k + 1, p => drawRows vx vy sprite (row + 1) k (drawRow vx vy row (sprite row) 0 8 p)

/-- `00E0` CLS (R150). -/
def execCls (s : State) : Host.Outcome State Fault Refusal := .next (s.show blankPicture)

/-- `Dxyn` DRW (R151): coordinates and `I` are latched, the collision is written once, after the last pixel. -/
def execDrw (x y : Reg) (n : Nibble) (s : State) : Host.Outcome State Fault Refusal :=
  let p := drawRows (s.readV x).toNat (s.readV y).toNat s.readAtIndex 0 n.toNat (s.fb, false)
  .next ((s.show p.1).writeV regVF (flagByte p.2))

end Sys2Proof.Machine
end

