-- ==== Sys2Proof/Machine/Flow.lean ====
section
/-! DEFINITION. Control transfer (40_flow.md): return, jump, call, indexed jump.  A meaning starts with `PC = npc`
(30_encoding.md R61). -/

namespace Sys2Proof.Machine

/-- `00EE` RET (R100): pop the full 16-bit return address, or record the underflow. -/
def execRet (s : State) : Host.Outcome State Fault Refusal := .next (s.popThen fun w t => t.setPC w)

/-- `1nnn` JP (R101). -/
def execJp (nnn : Imm12) (s : State) : Host.Outcome State Fault Refusal := .next (s.setPC (target12 nnn))

/-- `2nnn` CALL (R102): push `npc` and jump, or record the overflow. -/
def execCall (nnn : Imm12) (s : State) : Host.Outcome State Fault Refusal :=
  .next (s.pushThen s.pc fun t => t.setPC (target12 nnn))

/-- `Bnnn` JP V0 (R103): the sum is not reduced to 12 bits. -/
def execJpV0 (nnn : Imm12) (s : State) : Host.Outcome State Fault Refusal :=
  .next (s.setPC (target12 nnn + zext16 (s.readV 0)))

end Sys2Proof.Machine
end

