-- ==== Sys2Proof/Machine/IndexMemory.lean ====
section
/-! DEFINITION. The index register and memory (43_index_memory.md).  `I` is left as it is by every load and store. -/

namespace Sys2Proof.Machine

/-- `Annn` LD I, nnn (R140). -/
def execLdI (nnn : Imm12) (s : State) : Host.Outcome State Fault Refusal := .next (s.setIndex (target12 nnn))

/-- `Fx1E` ADD I, Vx (R141): kept to 16 bits, no flag. -/
def execAddIVx (x : Reg) (s : State) : Host.Outcome State Fault Refusal :=
  .next (s.setIndex (s.index + zext16 (s.readV x)))

/-- `Fx29` LD F, Vx (R142). -/
def execLdFVx (x : Reg) (s : State) : Host.Outcome State Fault Refusal :=
  .next (s.setIndex (glyphAddress (s.readV x)))

/-- `Fx33` LD B, Vx (R143). -/
def execLdBVx (x : Reg) (s : State) : Host.Outcome State Fault Refusal :=
  .next (s.writeAtIndex (bcdDigits (s.readV x)))

/-- `Fx55` LD [I], Vx (R144). -/
def execLdMemVx (x : Reg) (s : State) : Host.Outcome State Fault Refusal := .next (s.writeAtIndex (s.regsUpTo x))

/-- `Fx65` LD Vx, [I] (R145). -/
def execLdVxMem (x : Reg) (s : State) : Host.Outcome State Fault Refusal := .next { s with v := s.loadedRegs x }

end Sys2Proof.Machine
end

