-- ==== Sys2Proof/Machine/Unrecognised.lean ====
section
/-! DEFINITION. Unrecognised words (30_encoding.md R66). -/

namespace Sys2Proof.Machine

/-- `NOP.u` (R66): nothing; `PC` stays `npc`. -/
def execNopU (s : State) : Host.Outcome State Fault Refusal := .next s

end Sys2Proof.Machine
end

