-- ==== Sys2Proof/Machine/Step.lean ====
section
/-! DEFINITION. One step of the core (30_encoding.md R61): fetch, advance by 2, decode, execute.  The host's own moves
are in Machine/HostInterface.lean (log 3). -/

namespace Sys2Proof.Machine

/-- `step()` (R61). -/
def step (s : State) : Host.Outcome State Fault Refusal := exec (decode s.fetch) s.advance

/-- The instruction of a table word placed where the next step fetches, at `PC` (log 7). -/
def State.withFetchWord (s : State) (nbits w : Nat) : State := s.placeAtPC (tableBytes nbits w)

end Sys2Proof.Machine
end

