-- ==== Sys2Proof/Machine/HostInterface.lean ====
section
/-! DEFINITION. The host's side of the machine (60_exceptions.md R176, R177, R180 to R182; 70_reset_and_hazards.md
R190, R191, R196): power-on, the transactions, each one atomic, and runs that interleave them freely with steps. -/

namespace Sys2Proof.Machine

/-! ## The effects -/

/-- Power-on with a given font, the state `S0` (10_state.md R27, R190). -/
def State.powerOn (font : Vector Byte 80) : State :=
  { State.reset with mem := Memory.writeBytes [] 0 font.toList }

/-- `reset()` (R191): the power-on values, but the font region and the random source are left alone. -/
def State.resetCall (s : State) : State :=
  { State.reset with mem := Memory.clearAboveFont s.mem, draws := s.draws }

/-- The copy that `load_program` makes from address 512 (R196). -/
def State.loadImage (s : State) (bytes : List Byte) : State :=
  { s with mem := Memory.writeBytes s.mem Config.progBase bytes }

/-- One count down, floor at 0 (R180). -/
def countDown (b : Byte) : Byte := if 0 < b.toNat then b - 1#8 else 0#8

/-- `tick_timers()` (R180). -/
def State.tickTimers (s : State) : State := { s with dt := countDown s.dt, st := countDown s.st }

/-- `KEY[k] <- pressed` (R182). -/
def State.setKey (s : State) (k : Fin 16) (pressed : Bool) : State :=
  { s with key := if pressed then s.key ||| (1#16 <<< k.val) else s.key &&& ~~~(1#16 <<< k.val) }

/-- `clear_draw_flag()` (R181). -/
def State.clearDrawFlag (s : State) : State := { s with draw := false }

/-- The fault that the next step raises, if any: `2nnn` on a full stack, `00EE` on an empty one, and nothing else
(R170, R171). -/
def State.pendingFault (s : State) : Option Fault :=
  match decode s.fetch with
  | .call _ => if s.sp.val = 16 then some .stackOverflow else none
  | .ret => if s.sp.val = 0 then some .stackUnderflow else none
  | _ => none

/-! ## The transactions (R176) -/

/-- A call of the host into a machine that is powered on.  Indices are naturals, so that a call out of range can be
written and is refused (R174, log 9). -/
inductive Transaction where
  | reset
  | loadProgram (bytes : List Byte)
  | step
  | tickTimers
  | setKey (index : Nat) (pressed : Bool)
  | drawFlag
  | clearDrawFlag
  | pixel (index : Nat)
  /-- The read of `ERR` that the spec adds (R171, R176). -/
  | readErr
  deriving DecidableEq, Repr

/-- What a call gives back to the host. -/
inductive Response where
  | done
  /-- A step's result: the fault it raised, if any (R176 "optionally the fault raised"). -/
  | stepped (raised : Option Fault)
  | bit (b : Bool)
  | err (e : BitVec 2)
  /-- The image is longer than 3584 bytes; nothing was copied (R173). -/
  | loadError
  /-- An index is out of range; nothing was changed (R174). -/
  | preconditionFailure
  deriving DecidableEq, Repr

/-- One transaction: the next state and the host's answer.  It stops only as `step` stops, that is never. -/
def transact (t : Transaction) (s : State) : Host.Outcome (State × Response) Fault Refusal :=
  match t with
  | .reset => .next (s.resetCall, .done)
  | .loadProgram bytes =>
    if bytes.length ≤ Config.progMax then .next (s.loadImage bytes, .done) else .next (s, .loadError)
  | .step =>
    match Sys2Proof.Machine.step s with
    | .next u => .next (u, .stepped s.pendingFault)
    | .fault f => .fault f
    | .refused r => .refused r
  | .tickTimers => .next (s.tickTimers, .done)
  | .setKey index pressed =>
    if h : index < 16 then .next (s.setKey ⟨index, h⟩ pressed, .done) else .next (s, .preconditionFailure)
  | .drawFlag => .next (s, .bit s.draw)
  | .clearDrawFlag => .next (s.clearDrawFlag, .done)
  | .pixel index =>
    if index < Config.fbCells then .next (s, .bit (s.cell index)) else .next (s, .preconditionFailure)
  | .readErr => .next (s, .err s.err)

/-- A run: transactions one at a time, in the order the host chooses (R177).  There is no time in it
(70_reset_and_hazards.md R205, 92_eei_decisions.md D24; log 6): a transaction is one change of state with no duration,
a step moves no timer on, and any number of steps, zero included, may stand between two ticks. -/
def runTransactions : List Transaction → State → Host.Outcome State Fault Refusal
  | [], s => .next s
  | t :: ts, s =>
    match transact t s with
    | .next (u, _) => runTransactions ts u
    | .fault f => .fault f
    | .refused r => .refused r

end Sys2Proof.Machine
end

