-- ==== Sys2Proof/Safety.lean ====
section
/-! DEFINITION. The terms statements use: sets of pieces of state, agreement of two states on a set, what an
instruction may change, what each instruction reads and writes (10_state.md R23), the program counter a step leaves
(R13), and the states a run can reach (60_exceptions.md R177). -/

namespace Sys2Proof.Machine

/-! ## Sets of pieces of state -/

/-- A set of pieces of state; a piece that is not named is not in it. -/
structure Footprint where
  regs : Reg → Prop := fun _ => False
  index : Prop := False
  pc : Prop := False
  slots : Fin 16 → Prop := fun _ => False
  sp : Prop := False
  dt : Prop := False
  st : Prop := False
  cells : Nat → Prop := fun _ => False
  draw : Prop := False
  keys : Prop := False
  /-- Bit 0 overflow, bit 1 underflow. -/
  err : Fin 2 → Prop := fun _ => False
  /-- Addresses below 4096. -/
  mem : Nat → Prop := fun _ => False
  draws : Prop := False

/-- Everything outside a set. -/
def Footprint.compl (f : Footprint) : Footprint where
  regs r := ¬ f.regs r
  index := ¬ f.index
  pc := ¬ f.pc
  slots k := ¬ f.slots k
  sp := ¬ f.sp
  dt := ¬ f.dt
  st := ¬ f.st
  cells c := ¬ f.cells c
  draw := ¬ f.draw
  keys := ¬ f.keys
  err b := ¬ f.err b
  mem a := ¬ f.mem a
  draws := ¬ f.draws

/-- Two states hold the same in every piece of a set; memory is compared through the machine's read of one byte. -/
structure AgreeOn (f : Footprint) (s t : State) : Prop where
  regs : ∀ r, f.regs r → s.readV r = t.readV r
  index : f.index → s.index = t.index
  pc : f.pc → s.pc = t.pc
  slots : ∀ k : Fin 16, f.slots k → s.stack[k] = t.stack[k]
  sp : f.sp → s.sp = t.sp
  dt : f.dt → s.dt = t.dt
  st : f.st → s.st = t.st
  cells : ∀ c, f.cells c → s.cell c = t.cell c
  draw : f.draw → s.draw = t.draw
  keys : f.keys → s.key = t.key
  err : ∀ b : Fin 2, f.err b → s.err.getLsbD b.val = t.err.getLsbD b.val
  mem : ∀ a, f.mem (Memory.wrap a) → Memory.read s.mem a = Memory.read t.mem a
  draws : f.draws → s.draws = t.draws

/-- The frame: from `s` to `t` nothing outside the set is changed. -/
def ChangesOnly (f : Footprint) (s t : State) : Prop := AgreeOn f.compl s t

/-! ## The addresses and cells an instruction reaches -/

/-- `(I + k) mod 4096` for some `k < n`: the bytes an access of length `n` at `I` reaches (20_memory.md R43). -/
def atIndex (s : State) (n : Nat) (a : Nat) : Prop := ∃ k, k < n ∧ a = Memory.wrap (s.index.toNat + k)

/-- Sprite bit of row `row`, column `col`, column 0 the most significant bit (44_display.md R151). -/
def spriteBit (s : State) (row col : Nat) : Bool := (s.readAtIndex row).getLsbD (7 - col)

/-- A set sprite bit of an `n`-row draw at `V[x]`, `V[y]` lands on cell `c` (44_display.md R151, R152). -/
def spriteHits (s : State) (x y : Reg) (n : Nat) (c : Nat) : Prop :=
  ∃ row, row < n ∧ ∃ col, col < 8 ∧ spriteBit s row col = true ∧
    targetCell (s.readV x).toNat (s.readV y).toNat row col = c

/-! ## Read and write sets (10_state.md R23) -/

/-- What the instruction's own effect reads; the reads of a skip, a call and the key wait include the `PC` they
re-adjust. -/
def readSet (i : Instr) (s : State) : Footprint :=
  match i with
  | .cls => {}
  | .ret => { sp := True, slots := fun k => k.val + 1 = s.sp.val }
  | .jp _ => {}
  | .call _ => { sp := True, pc := True }
  | .seImm x _ | .sneImm x _ => { regs := fun r => r = x, pc := True }
  | .seReg x y _ | .sneReg x y _ => { regs := fun r => r = x ∨ r = y, pc := True }
  | .ldImm _ _ => {}
  | .addImm x _ => { regs := fun r => r = x }
  | .ldReg _ y => { regs := fun r => r = y }
  | .orReg x y | .andReg x y | .xorReg x y | .addReg x y | .subReg x y | .subnReg x y =>
    { regs := fun r => r = x ∨ r = y }
  | .shr x _ | .shl x _ => { regs := fun r => r = x }
  | .ldI _ => {}
  | .jpV0 _ => { regs := fun r => r = 0 }
  | .rnd _ _ => { draws := True }
  | .drw x y n =>
    { regs := fun r => r = x ∨ r = y, index := True, cells := fun _ => True, mem := atIndex s n.toNat }
  | .skp x | .sknp x => { regs := fun r => r = x, keys := True, pc := True }
  | .ldVxDT _ => { dt := True }
  | .ldVxK _ => { keys := True, pc := True }
  | .ldDTVx x | .ldSTVx x => { regs := fun r => r = x }
  | .addIVx x => { regs := fun r => r = x, index := True }
  | .ldFVx x => { regs := fun r => r = x }
  | .ldBVx x => { regs := fun r => r = x, index := True }
  | .ldMemVx x => { regs := fun r => r ≤ x, index := True }
  | .ldVxMem x => { index := True, mem := atIndex s (x.val + 1) }
  | .nopU _ => {}

/-- What the instruction's own effect writes, the stack faults and the two outcomes of the key wait told apart. -/
def writeSet (i : Instr) (s : State) : Footprint :=
  match i with
  | .cls => { cells := fun _ => True, draw := True }
  | .ret => if s.sp.val = 0 then { err := fun b => b = 1 } else { sp := True, pc := True }
  | .jp _ => { pc := True }
  | .call _ =>
    if s.sp.val = 16 then { err := fun b => b = 0 }
    else { sp := True, pc := True, slots := fun k => k.val = s.sp.val }
  | .seImm _ _ | .sneImm _ _ | .seReg _ _ _ | .sneReg _ _ _ => { pc := True }
  | .ldImm x _ | .addImm x _ => { regs := fun r => r = x }
  | .ldReg x _ | .orReg x _ | .andReg x _ | .xorReg x _ => { regs := fun r => r = x }
  | .addReg x _ | .subReg x _ | .shr x _ | .subnReg x _ | .shl x _ => { regs := fun r => r = x ∨ r = regVF }
  | .ldI _ => { index := True }
  | .jpV0 _ => { pc := True }
  | .rnd x _ => { regs := fun r => r = x, draws := True }
  | .drw _ _ _ => { regs := fun r => r = regVF, cells := fun _ => True, draw := True }
  | .skp _ | .sknp _ => { pc := True }
  | .ldVxDT x => { regs := fun r => r = x }
  | .ldVxK x => if s.key = 0#16 then { pc := True } else { regs := fun r => r = x }
  | .ldDTVx _ => { dt := True }
  | .ldSTVx _ => { st := True }
  | .addIVx _ | .ldFVx _ => { index := True }
  | .ldBVx _ => { mem := atIndex s 3 }
  | .ldMemVx x => { mem := atIndex s (x.val + 1) }
  | .ldVxMem x => { regs := fun r => r ≤ x }
  | .nopU _ => {}

/-! ## What a step leaves in the program counter (10_state.md R13) -/

/-- The key-skip condition and the register comparisons of R13's "with the condition true". -/
def skipTaken (i : Instr) (s : State) : Prop :=
  match i with
  | .seImm x kk => s.readV x = kk
  | .sneImm x kk => s.readV x ≠ kk
  | .seReg x y _ => s.readV x = s.readV y
  | .sneReg x y _ => s.readV x ≠ s.readV y
  | .skp x => s.key.getLsbD ((s.readV x).toNat % 16) = true
  | .sknp x => s.key.getLsbD ((s.readV x).toNat % 16) = false
  | .cls | .ret | .jp _ | .call _ | .ldImm _ _ | .addImm _ _ | .ldReg _ _ | .orReg _ _ | .andReg _ _ | .xorReg _ _
  | .addReg _ _ | .subReg _ _ | .shr _ _ | .subnReg _ _ | .shl _ _ | .ldI _ | .jpV0 _ | .rnd _ _ | .drw _ _ _
  | .ldVxDT _ | .ldVxK _ | .ldDTVx _ | .ldSTVx _ | .addIVx _ | .ldFVx _ | .ldBVx _ | .ldMemVx _ | .ldVxMem _
  | .nopU _ => False

/-- R13's table, row by row: `pc` is what a step that starts in `s` and executes `i` leaves in `PC`. -/
def leavesPC (i : Instr) (s : State) (pc : Nat) : Prop :=
  let npc := (s.pc.toNat + 2) % 65536
  match i with
  | .jp nnn => pc = nnn.toNat
  | .call nnn => pc = if s.sp.val = 16 then npc else nnn.toNat
  | .ret => (s.sp.val = 0 → pc = npc) ∧ ∀ k : Fin 16, k.val + 1 = s.sp.val → pc = s.stack[k].toNat
  | .jpV0 nnn => pc = nnn.toNat + (s.readV 0).toNat
  | .ldVxK _ => pc = if s.key = 0#16 then s.pc.toNat else npc
  | .seImm _ _ | .sneImm _ _ | .seReg _ _ _ | .sneReg _ _ _ | .skp _ | .sknp _ =>
    (skipTaken i s → pc = (npc + 2) % 65536) ∧ (¬ skipTaken i s → pc = npc)
  | .cls | .ldImm _ _ | .addImm _ _ | .ldReg _ _ | .orReg _ _ | .andReg _ _ | .xorReg _ _ | .addReg _ _
  | .subReg _ _ | .shr _ _ | .subnReg _ _ | .shl _ _ | .ldI _ | .rnd _ _ | .drw _ _ _ | .ldVxDT _ | .ldDTVx _
  | .ldSTVx _ | .addIVx _ | .ldFVx _ | .ldBVx _ | .ldMemVx _ | .ldVxMem _ | .nopU _ => pc = npc

/-! ## Reset values -/

/-- The power-on value of everything but memory and the random source (10_state.md R27). -/
structure HasResetValues (s : State) : Prop where
  regs : ∀ r, s.readV r = 0#8
  index : s.index = 0#16
  pc : s.pc = 512#16
  sp : s.sp.val = 0
  slots : ∀ k : Fin 16, s.stack[k] = 0#16
  dt : s.dt = 0#8
  st : s.st = 0#8
  cells : ∀ c, s.cell c = false
  draw : s.draw = false
  keys : ∀ k, s.keyDown k = false
  err : s.err = 0#2

/-! ## Runs -/

/-- The invariant of the model: memory is in canonical form.  Everything else of 10_state.md R28 holds by the types. -/
def State.Inv (s : State) : Prop := Memory.wf s.mem = true

/-- The states a run can reach: power-on with any font, then any transactions in any order (R177). -/
inductive Reachable : State → Prop where
  | powerOn (font : Vector Byte 80) : Reachable (State.powerOn font)
  | move (s u : State) (t : Transaction) (r : Response) :
    Reachable s → transact t s = .next (u, r) → Reachable u

end Sys2Proof.Machine
end

