-- ==== Sys2Proof/Certificates/Slice0/Obligations.lean ====
section
/-! DEFINITION. The statements for the provers, each from the spec's numbered rules.  An instruction statement gives the
encoding, says that the effect completes, gives the new values and says that nothing else changes; the effect starts
with `PC = npc` (30_encoding.md R61). -/

open Sys2Proof Sys2Proof.Machine

/-! ## Control transfer (40_flow.md) -/

/-- R100: `00EE` pops the whole 16-bit return address, or on an empty stack only sets `ERR.unf`. -/
def Obligations.ReturnPopsOrRecordsUnderflow : Prop :=
  decode 0x00EE#16 = .ret ∧
  ∀ s : State, ∃ t, exec .ret s = .next t ∧
    (s.sp.val = 0 → t.err.getLsbD 1 = true ∧ ChangesOnly { err := fun b => b = 1 } s t) ∧
    ∀ k : Fin 16, k.val + 1 = s.sp.val →
      t.sp.val = k.val ∧ t.pc = s.stack[k] ∧ ChangesOnly { sp := True, pc := True } s t

/-- R101: `1nnn` puts the zero-extended `nnn` into `PC`. -/
def Obligations.JumpSetsPC : Prop :=
  ∀ (nnn : Imm12) (s : State), decode (encodeNNN 0x1#4 nnn) = .jp nnn ∧
    ∃ t, exec (.jp nnn) s = .next t ∧ t.pc.toNat = nnn.toNat ∧ ChangesOnly { pc := True } s t

/-- R102: `2nnn` pushes `npc` and jumps, or on a full stack only sets `ERR.ovf`. -/
def Obligations.CallPushesOrRecordsOverflow : Prop :=
  ∀ (nnn : Imm12) (s : State), decode (encodeNNN 0x2#4 nnn) = .call nnn ∧
    ∃ t, exec (.call nnn) s = .next t ∧
      (s.sp.val = 16 → t.err.getLsbD 0 = true ∧ ChangesOnly { err := fun b => b = 0 } s t) ∧
      ∀ k : Fin 16, k.val = s.sp.val →
        t.stack[k] = s.pc ∧ t.sp.val = k.val + 1 ∧ t.pc.toNat = nnn.toNat ∧
          ChangesOnly { slots := fun j => j = k, sp := True, pc := True } s t

/-- R103: `Bnnn` puts the unreduced sum `nnn + V[0]` into `PC`. -/
def Obligations.IndexedJumpAddsV0 : Prop :=
  ∀ (nnn : Imm12) (s : State), decode (encodeNNN 0xB#4 nnn) = .jpV0 nnn ∧
    ∃ t, exec (.jpV0 nnn) s = .next t ∧ t.pc.toNat = nnn.toNat + (s.readV 0).toNat ∧
      ChangesOnly { pc := True } s t

/-! ## Skips (41_skip.md) -/

/-- R110, R111: `3xkk` and `4xkk` move `PC` on by 2 exactly when the comparison with `kk` holds. -/
def Obligations.SkipOnImmediate : Prop :=
  ∀ (x : Reg) (kk : Byte) (s : State),
    decode (encodeXKK 0x3#4 x kk) = .seImm x kk ∧ decode (encodeXKK 0x4#4 x kk) = .sneImm x kk ∧
    (∃ t, exec (.seImm x kk) s = .next t ∧ ChangesOnly { pc := True } s t ∧
      t.pc.toNat = if s.readV x = kk then (s.pc.toNat + 2) % 65536 else s.pc.toNat) ∧
    ∃ t, exec (.sneImm x kk) s = .next t ∧ ChangesOnly { pc := True } s t ∧
      t.pc.toNat = if s.readV x ≠ kk then (s.pc.toNat + 2) % 65536 else s.pc.toNat

/-- R112, R113: `5xyn` and `9xyn` compare two registers; `n` is ignored. -/
def Obligations.SkipOnRegisters : Prop :=
  ∀ (x y : Reg) (n : Nibble) (s : State),
    decode (encodeXYN 0x5#4 x y n) = .seReg x y n ∧ decode (encodeXYN 0x9#4 x y n) = .sneReg x y n ∧
    (∃ t, exec (.seReg x y n) s = .next t ∧ ChangesOnly { pc := True } s t ∧
      t.pc.toNat = if s.readV x = s.readV y then (s.pc.toNat + 2) % 65536 else s.pc.toNat) ∧
    ∃ t, exec (.sneReg x y n) s = .next t ∧ ChangesOnly { pc := True } s t ∧
      t.pc.toNat = if s.readV x ≠ s.readV y then (s.pc.toNat + 2) % 65536 else s.pc.toNat

/-! ## Registers and the ALU (42_alu.md) -/

/-- R121: `6xkk` loads the immediate. -/
def Obligations.LoadImmediate : Prop :=
  ∀ (x : Reg) (kk : Byte) (s : State), decode (encodeXKK 0x6#4 x kk) = .ldImm x kk ∧
    ∃ t, exec (.ldImm x kk) s = .next t ∧ t.readV x = kk ∧ ChangesOnly { regs := fun r => r = x } s t

/-- R122: `7xkk` adds modulo 256 and writes no flag. -/
def Obligations.AddImmediateWrapsWithoutFlag : Prop :=
  ∀ (x : Reg) (kk : Byte) (s : State), decode (encodeXKK 0x7#4 x kk) = .addImm x kk ∧
    ∃ t, exec (.addImm x kk) s = .next t ∧ (t.readV x).toNat = ((s.readV x).toNat + kk.toNat) % 256 ∧
      ChangesOnly { regs := fun r => r = x } s t

/-- R123: `8xy0` copies a register. -/
def Obligations.CopyRegister : Prop :=
  ∀ (x y : Reg) (s : State), decode (encodeXYN 0x8#4 x y 0x0#4) = .ldReg x y ∧
    ∃ t, exec (.ldReg x y) s = .next t ∧ t.readV x = s.readV y ∧ ChangesOnly { regs := fun r => r = x } s t

/-- R124, R125, R126: `8xy1`, `8xy2`, `8xy3` work bit by bit and write no flag. -/
def Obligations.LogicIsBitwiseWithoutFlag : Prop :=
  ∀ (x y : Reg) (s : State),
    decode (encodeXYN 0x8#4 x y 0x1#4) = .orReg x y ∧ decode (encodeXYN 0x8#4 x y 0x2#4) = .andReg x y ∧
    decode (encodeXYN 0x8#4 x y 0x3#4) = .xorReg x y ∧
    (∃ t, exec (.orReg x y) s = .next t ∧ ChangesOnly { regs := fun r => r = x } s t ∧
      ∀ b, (t.readV x).getLsbD b = ((s.readV x).getLsbD b || (s.readV y).getLsbD b)) ∧
    (∃ t, exec (.andReg x y) s = .next t ∧ ChangesOnly { regs := fun r => r = x } s t ∧
      ∀ b, (t.readV x).getLsbD b = ((s.readV x).getLsbD b && (s.readV y).getLsbD b)) ∧
    ∃ t, exec (.xorReg x y) s = .next t ∧ ChangesOnly { regs := fun r => r = x } s t ∧
      ∀ b, (t.readV x).getLsbD b = ((s.readV x).getLsbD b != (s.readV y).getLsbD b)

/-- R127: `8xy4` adds; `VF` is the carry of the old operands and is what `VF` ends as, also when `x = 15`. -/
def Obligations.AddSetsCarry : Prop :=
  ∀ (x y : Reg) (s : State), decode (encodeXYN 0x8#4 x y 0x4#4) = .addReg x y ∧
    ∃ t, exec (.addReg x y) s = .next t ∧
      (t.readV 15).toNat = (if (s.readV x).toNat + (s.readV y).toNat > 255 then 1 else 0) ∧
      (x ≠ 15 → (t.readV x).toNat = ((s.readV x).toNat + (s.readV y).toNat) % 256) ∧
      ChangesOnly { regs := fun r => r = x ∨ r = 15 } s t

/-- R128: `8xy5` subtracts; `VF` is 1 when no borrow occurred, and is what `VF` ends as, also when `x = 15`. -/
def Obligations.SubtractSetsNoBorrow : Prop :=
  ∀ (x y : Reg) (s : State), decode (encodeXYN 0x8#4 x y 0x5#4) = .subReg x y ∧
    ∃ t, exec (.subReg x y) s = .next t ∧
      (t.readV 15).toNat = (if (s.readV x).toNat ≥ (s.readV y).toNat then 1 else 0) ∧
      (x ≠ 15 → ((t.readV x).toNat : Int) = (((s.readV x).toNat : Int) - (s.readV y).toNat) % 256) ∧
      ChangesOnly { regs := fun r => r = x ∨ r = 15 } s t

/-- R129: `8xy6` shifts `V[x]` right by one; `VF` is the old bit 0; `y` is ignored. -/
def Obligations.ShiftRightSetsLowBit : Prop :=
  ∀ (x y : Reg) (s : State), decode (encodeXYN 0x8#4 x y 0x6#4) = .shr x y ∧
    ∃ t, exec (.shr x y) s = .next t ∧
      (t.readV 15).toNat = (s.readV x).toNat % 2 ∧
      (x ≠ 15 → (t.readV x).toNat = (s.readV x).toNat / 2) ∧
      ChangesOnly { regs := fun r => r = x ∨ r = 15 } s t

/-- R130: `8xy7` subtracts the other way round into `V[x]`. -/
def Obligations.ReverseSubtractSetsNoBorrow : Prop :=
  ∀ (x y : Reg) (s : State), decode (encodeXYN 0x8#4 x y 0x7#4) = .subnReg x y ∧
    ∃ t, exec (.subnReg x y) s = .next t ∧
      (t.readV 15).toNat = (if (s.readV y).toNat ≥ (s.readV x).toNat then 1 else 0) ∧
      (x ≠ 15 → ((t.readV x).toNat : Int) = (((s.readV y).toNat : Int) - (s.readV x).toNat) % 256) ∧
      ChangesOnly { regs := fun r => r = x ∨ r = 15 } s t

/-- R131: `8xyE` shifts `V[x]` left by one; `VF` is the old bit 7; `y` is ignored. -/
def Obligations.ShiftLeftSetsHighBit : Prop :=
  ∀ (x y : Reg) (s : State), decode (encodeXYN 0x8#4 x y 0xE#4) = .shl x y ∧
    ∃ t, exec (.shl x y) s = .next t ∧
      (t.readV 15).toNat = (s.readV x).toNat / 128 ∧
      (x ≠ 15 → (t.readV x).toNat = 2 * (s.readV x).toNat % 256) ∧
      ChangesOnly { regs := fun r => r = x ∨ r = 15 } s t

/-- R132: `Cxkk` masks the next byte of the random sequence, whatever the sequence is, and consumes one draw also when
`kk = 0`.  That the random source is a sequence read at a position is the model's form (log 1). -/
def Obligations.RandomMasksOneDraw : Prop :=
  ∀ (x : Reg) (kk : Byte) (s : State), decode (encodeXKK 0xC#4 x kk) = .rnd x kk ∧
    ∃ t, exec (.rnd x kk) s = .next t ∧
      (∀ b, (t.readV x).getLsbD b = ((Config.randByte s.draws).getLsbD b && kk.getLsbD b)) ∧
      t.draws = s.draws + 1 ∧ ChangesOnly { regs := fun r => r = x, draws := True } s t

/-- R133's identities: after `8xy4` carry and result make up the exact sum, after `8xy5` flag and result make up the
exact difference, and `8xy7` is `8xy5` with the operand roles exchanged. -/
def Obligations.CarryAndBorrowIdentities : Prop :=
  ∀ (x y : Reg) (s t : State), x ≠ 15 →
    (exec (.addReg x y) s = .next t →
      256 * (t.readV 15).toNat + (t.readV x).toNat = (s.readV x).toNat + (s.readV y).toNat) ∧
    (exec (.subReg x y) s = .next t →
      ((t.readV x).toNat : Int) = (s.readV x).toNat - (s.readV y).toNat + 256 * (1 - (t.readV 15).toNat)) ∧
    (exec (.subnReg x y) s = .next t →
      ((t.readV x).toNat : Int) = (s.readV y).toNat - (s.readV x).toNat + 256 * (1 - (t.readV 15).toNat))

/-! ## Index register and memory (43_index_memory.md) -/

/-- R140: `Annn` loads `I`, with at most `0x0FFF`; of all instructions only `Fx1E` takes `I` above that. -/
def Obligations.LoadIndex : Prop :=
  (∀ (nnn : Imm12) (s : State), decode (encodeNNN 0xA#4 nnn) = .ldI nnn ∧
    ∃ t, exec (.ldI nnn) s = .next t ∧ t.index.toNat = nnn.toNat ∧ t.index.toNat ≤ 0x0FFF ∧
      ChangesOnly { index := True } s t) ∧
  ∀ (i : Instr) (s t : State), exec i s = .next t → s.index.toNat ≤ 0x0FFF → 0x0FFF < t.index.toNat →
    ∃ x, i = .addIVx x

/-- R141: `Fx1E` adds to `I` modulo 65536 and writes no flag. -/
def Obligations.AddIndexWrapsWithoutFlag : Prop :=
  ∀ (x : Reg) (s : State), decode (encodeXKK 0xF#4 x 0x1E#8) = .addIVx x ∧
    ∃ t, exec (.addIVx x) s = .next t ∧ t.index.toNat = (s.index.toNat + (s.readV x).toNat) % 65536 ∧
      ChangesOnly { index := True } s t

/-- R142: `Fx29` points `I` at the glyph of the low nibble. -/
def Obligations.FontAddressOfLowNibble : Prop :=
  ∀ (x : Reg) (s : State), decode (encodeXKK 0xF#4 x 0x29#8) = .ldFVx x ∧
    ∃ t, exec (.ldFVx x) s = .next t ∧ t.index.toNat = 5 * ((s.readV x).toNat % 16) ∧
      ChangesOnly { index := True } s t

/-- R143: `Fx33` stores hundreds, tens and units at `I`, `I + 1`, `I + 2` modulo 4096. -/
def Obligations.StoresDecimalDigits : Prop :=
  ∀ (x : Reg) (s : State), decode (encodeXKK 0xF#4 x 0x33#8) = .ldBVx x ∧
    ∃ t, exec (.ldBVx x) s = .next t ∧
      (Memory.read t.mem s.index.toNat).toNat = (s.readV x).toNat / 100 ∧
      (Memory.read t.mem (s.index.toNat + 1)).toNat = (s.readV x).toNat / 10 % 10 ∧
      (Memory.read t.mem (s.index.toNat + 2)).toNat = (s.readV x).toNat % 10 ∧
      ChangesOnly { mem := atIndex s 3 } s t

/-- R144: `Fx55` stores `V[0]` to `V[x]` at `I`, ... modulo 4096; `I` is unchanged. -/
def Obligations.StoresRegisterBlock : Prop :=
  ∀ (x : Reg) (s : State), decode (encodeXKK 0xF#4 x 0x55#8) = .ldMemVx x ∧
    ∃ t, exec (.ldMemVx x) s = .next t ∧
      (∀ r : Reg, r ≤ x → Memory.read t.mem (s.index.toNat + r.val) = s.readV r) ∧
      ChangesOnly { mem := atIndex s (x.val + 1) } s t

/-- R145: `Fx65` loads `V[0]` to `V[x]` from `I`, ... modulo 4096; `I` is unchanged. -/
def Obligations.LoadsRegisterBlock : Prop :=
  ∀ (x : Reg) (s : State), decode (encodeXKK 0xF#4 x 0x65#8) = .ldVxMem x ∧
    ∃ t, exec (.ldVxMem x) s = .next t ∧
      (∀ r : Reg, r ≤ x → t.readV r = Memory.read s.mem (s.index.toNat + r.val)) ∧
      ChangesOnly { regs := fun r => r ≤ x } s t

/-- R51: a store is seen by the fetch of the very next step.  After an `Fx55` that stores onto the bytes at `PC`, the
next word is `V[0]`, `V[1]`. -/
def Obligations.StoreIsSeenByNextFetch : Prop :=
  ∀ (x : Reg) (s t : State), 1 ≤ x.val → Memory.wrap s.index.toNat = Memory.wrap s.pc.toNat →
    exec (.ldMemVx x) s = .next t →
      t.fetch.toNat = (s.readV 0).toNat * 256 + (s.readV 1).toNat

/-- Equal bytes are equal data: two memories in canonical form that read the same at every address are the same list
(the model's own representation, log 8). -/
def Obligations.CanonicalMemoryIsItsBytes : Prop :=
  ∀ m m' : Memory, Memory.wf m = true → Memory.wf m' = true →
    (∀ a, a < 4096 → Memory.read m a = Memory.read m' a) → m = m'

/-! ## Display (44_display.md) -/

/-- R150: `00E0` clears every cell and sets the draw flag. -/
def Obligations.ClearBlanksEveryCell : Prop :=
  decode 0x00E0#16 = .cls ∧
  ∀ s : State, ∃ t, exec .cls s = .next t ∧ (∀ c, t.cell c = false) ∧ t.draw = true ∧
    ChangesOnly { cells := fun _ => True, draw := True } s t

/-- R151: `Dxyn` flips exactly the cells its set sprite bits land on, writes `VF` once with the collision of the old
cells, and sets the draw flag; coordinates, `I` and cells are those from before the instruction. -/
def Obligations.DrawFlipsSpriteCells : Prop :=
  ∀ (x y : Reg) (n : Nibble) (s : State), decode (encodeXYN 0xD#4 x y n) = .drw x y n ∧
    ∃ t, exec (.drw x y n) s = .next t ∧
      (∀ c, t.cell c = true ↔ ¬ (s.cell c = true ↔ spriteHits s x y n.toNat c)) ∧
      ((∃ c, spriteHits s x y n.toNat c ∧ s.cell c = true) → t.readV 15 = 1#8) ∧
      ((¬ ∃ c, spriteHits s x y n.toNat c ∧ s.cell c = true) → t.readV 15 = 0#8) ∧
      t.draw = true ∧
      ChangesOnly { regs := fun r => r = 15, cells := fun _ => True, draw := True } s t

/-- R152, R153 (a): the target in its equivalent forms, its worked values, and no two pixels of one sprite on one cell.
The formula and the worked values are R152's own; the spec marks the equivalent forms (in R152) and the distinctness
(R153 (a)) as derived. -/
def Obligations.TargetCellFormulas : Prop :=
  (∀ vx vy row col : Nat,
    targetCell vx vy row col = ((vx + col) + (vy + row) * 64) % 2048 ∧
    targetCell vx vy row col = ((vx + col) + (vy + row) % 32 * 64) % 2048 ∧
    targetCell vx vy row col % 64 = (vx + col) % 64 ∧
    targetCell vx vy row col / 64 = (vy + row + (vx + col) / 64) % 32) ∧
  (∀ vx vy row col row' col' : Nat, row < 15 → row' < 15 → col < 8 → col' < 8 →
    targetCell vx vy row col = targetCell vx vy row' col' → row = row' ∧ col = col') ∧
  targetCell 62 31 0 0 = 2046 ∧ targetCell 62 31 0 1 = 2047 ∧ targetCell 62 31 0 2 = 0 ∧
  targetCell 62 31 0 3 = 1 ∧ targetCell 64 0 0 0 = 64 ∧ targetCell 255 255 0 0 = 191

/-- R153 (b): the same draw twice, with the coordinates as they were, gives the picture back.  The second draw collides
exactly when some cell it lands on was 0 at first, so a first draw without collision by a sprite with a set bit is
followed by one with collision (R151 corner case 3, read through the pseudocode, log 10). -/
def Obligations.DrawingTwiceRestores : Prop :=
  ∀ (x y : Reg) (n : Nibble) (s t u : State),
    exec (.drw x y n) s = .next t → t.readV x = s.readV x → t.readV y = s.readV y →
    exec (.drw x y n) t = .next u →
      u.fb = s.fb ∧ (u.readV 15 = 1#8 ↔ ∃ c, spriteHits s x y n.toNat c ∧ s.cell c = false) ∧
      (t.readV 15 = 0#8 → (∃ c, spriteHits s x y n.toNat c) → u.readV 15 = 1#8)

/-- R153 (c): `VF = 1` after a draw exactly when some cell went from 1 to 0. -/
def Obligations.CollisionMeansErasedCell : Prop :=
  ∀ (x y : Reg) (n : Nibble) (s t : State), exec (.drw x y n) s = .next t →
    (t.readV 15 = 1#8 ↔ ∃ c, s.cell c = true ∧ t.cell c = false)

/-! ## Keypad and timers (45_keypad_timers.md) -/

/-- R160, R161: `Ex9E` and `ExA1` skip on the level of the key that the low nibble of `V[x]` names. -/
def Obligations.SkipOnKey : Prop :=
  ∀ (x : Reg) (s : State),
    decode (encodeXKK 0xE#4 x 0x9E#8) = .skp x ∧ decode (encodeXKK 0xE#4 x 0xA1#8) = .sknp x ∧
    (∃ t, exec (.skp x) s = .next t ∧ ChangesOnly { pc := True } s t ∧
      t.pc.toNat = if s.keyDown ((s.readV x).toNat % 16) = true then (s.pc.toNat + 2) % 65536 else s.pc.toNat) ∧
    ∃ t, exec (.sknp x) s = .next t ∧ ChangesOnly { pc := True } s t ∧
      t.pc.toNat = if s.keyDown ((s.readV x).toNat % 16) = false then (s.pc.toNat + 2) % 65536 else s.pc.toNat

/-- R162: `Fx0A` takes the least pressed key, or goes back to itself and changes nothing else. -/
def Obligations.KeyWaitTakesLeastKey : Prop :=
  ∀ (x : Reg) (s : State), decode (encodeXKK 0xF#4 x 0x0A#8) = .ldVxK x ∧
    ∃ t, exec (.ldVxK x) s = .next t ∧
      ((∀ k : Fin 16, s.keyDown k.val = false) →
        t.pc.toNat = (s.pc.toNat + 65534) % 65536 ∧ ChangesOnly { pc := True } s t) ∧
      ∀ k : Fin 16, s.keyDown k.val = true → (∀ j : Fin 16, j < k → s.keyDown j.val = false) →
        (t.readV x).toNat = k.val ∧ ChangesOnly { regs := fun r => r = x } s t

/-- R163: `Fx07` reads the delay timer and leaves it as it is. -/
def Obligations.ReadsDelayTimer : Prop :=
  ∀ (x : Reg) (s : State), decode (encodeXKK 0xF#4 x 0x07#8) = .ldVxDT x ∧
    ∃ t, exec (.ldVxDT x) s = .next t ∧ t.readV x = s.dt ∧ ChangesOnly { regs := fun r => r = x } s t

/-- R164, R165: `Fx15` and `Fx18` set a timer. -/
def Obligations.SetsTimers : Prop :=
  ∀ (x : Reg) (s : State),
    decode (encodeXKK 0xF#4 x 0x15#8) = .ldDTVx x ∧ decode (encodeXKK 0xF#4 x 0x18#8) = .ldSTVx x ∧
    (∃ t, exec (.ldDTVx x) s = .next t ∧ t.dt = s.readV x ∧ ChangesOnly { dt := True } s t) ∧
    ∃ t, exec (.ldSTVx x) s = .next t ∧ t.st = s.readV x ∧ ChangesOnly { st := True } s t

/-! ## Unrecognised words, decoding and encoding (30_encoding.md) -/

/-- R66: an unrecognised word is a no-op: the step moves `PC` on by 2 and changes nothing else. -/
def Obligations.UnrecognisedWordIsNoOp : Prop :=
  (∀ (w : Word) (s : State), exec (.nopU w) s = .next s) ∧
  ∀ s : State, unrecognised s.fetch = true →
    ∃ t, step s = .next t ∧ t.pc.toNat = (s.pc.toNat + 2) % 65536 ∧ ChangesOnly { pc := True } s t

/-- A few words of 95_test_vectors.md B1 and R72 decode as the tables say. -/
def Obligations.SampleWordsDecode : Prop :=
  decode 0x8AB4#16 = .addReg 0xA 0xB ∧ decode 0xD125#16 = .drw 1 2 0x5#4 ∧ decode 0xF365#16 = .ldVxMem 3 ∧
  decode 0x00E0#16 = .cls ∧ decode 0x00EE#16 = .ret ∧ decode 0x5121#16 = .seReg 1 2 0x1#4 ∧
  decode 0x812F#16 = .nopU 0x812F#16 ∧ decode 0x1234#16 = .jp 0x234#12 ∧ decode 0xF175#16 = .nopU 0xF175#16

/-- Decode and encode agree: every well-formed instruction, with every operand at every value, is read back from its
word and from its two bytes, high byte first.  That an instruction keeps the fields it ignores is the model's choice
(log 12). -/
def Obligations.DecodeOfEncode : Prop :=
  ∀ i : Instr, i.wellFormed = true →
    decode (encode i) = i ∧ ∀ rest, decodeBytes (encodeBytes i ++ rest) = .ok (i, rest)

/-- The other way: no bit of any of the 65536 words is lost, and what decoding gives is well formed.  R65 says that
decoding is total.  That a decoded instruction keeps the fields it ignores (`n` of `5xyn` and `9xyn`, `y` of `8xy6` and
`8xyE`) and the whole unrecognised word, so that encoding gives them back, is the model's choice (log 12). -/
def Obligations.EncodeOfDecode : Prop :=
  ∀ w : Word, encode (decode w) = w ∧ (decode w).wellFormed = true

/-- R67: the words that decode as unrecognised are exactly those of the four sets, which are exactly the words that
match no row of R64. -/
def Obligations.UnrecognisedWordsExactly : Prop :=
  ∀ w : Word, (decode w = .nopU w ↔ unrecognised w = true) ∧
    (unrecognised w = true ↔ ∀ r ∈ opcodeTable, rowMatches r w = false)

/-- R65: every word is in the row it is decoded by, and no word matches two rows. -/
def Obligations.OpcodeRowsDisjoint : Prop :=
  (∀ w : Word, rowMatches (opcodeRow (decode w)) w = true) ∧
  opcodeTable.Pairwise fun r r' => ∀ w, ¬ (rowMatches r w = true ∧ rowMatches r' w = true)

/-! ## The step (30_encoding.md R61) -/

/-- R61: a step fetches the two bytes at `PC`, moves `PC` on by 2 and runs the instruction they decode to. -/
def Obligations.StepRunsDecodedInstruction : Prop :=
  ∀ (s : State) (i : Instr) (rest : List Byte),
    decodeBytes [Memory.read s.mem s.pc.toNat, Memory.read s.mem (s.pc.toNat + 1)] = .ok (i, rest) →
      step s = exec i { s with pc := s.pc + 2#16 }

/-- R61 "A step always completes": in every state the step answers a next state. -/
def Obligations.StepAlwaysCompletes : Prop := ∀ s : State, ∃ t, step s = .next t

/-- R13: what a step leaves in `PC`, for every instruction. -/
def Obligations.StepLeavesPC : Prop :=
  ∀ s t : State, step s = .next t → leavesPC (decode s.fetch) s t.pc.toNat

/-- R23: no instruction changes anything outside its row's write set. -/
def Obligations.WriteSets : Prop :=
  ∀ (i : Instr) (s t : State), exec i s = .next t → ChangesOnly (writeSet i s) s t

/-- R23: what an instruction writes depends on nothing outside its row's read set. -/
def Obligations.ReadSets : Prop :=
  ∀ (i : Instr) (s s' t t' : State), AgreeOn (readSet i s) s s' →
    exec i s = .next t → exec i s' = .next t' → AgreeOn (writeSet i s) t t'

/-- R170, R171, R172, R21: a step adds to `ERR` the bit of the fault it raises and no other, no step clears a bit, and
a step that raises a fault does nothing else but move `PC` on. -/
def Obligations.FaultsAreRecordedAndSticky : Prop :=
  ∀ s t : State, step s = .next t →
    (s.pendingFault = none → t.err = s.err) ∧
    (s.pendingFault = some .stackOverflow →
      t.err.getLsbD 0 = true ∧ t.pc = s.pc + 2#16 ∧ ChangesOnly { err := fun b => b = 0, pc := True } s t) ∧
    (s.pendingFault = some .stackUnderflow →
      t.err.getLsbD 1 = true ∧ t.pc = s.pc + 2#16 ∧ ChangesOnly { err := fun b => b = 1, pc := True } s t)

/-- R204, R162: a jump to itself and a key wait with no key down map the whole state to itself. -/
def Obligations.LoopsAreFixedPoints : Prop :=
  (∀ (s : State) (nnn : Imm12), s.fetch = encodeNNN 0x1#4 nnn → s.pc.toNat = nnn.toNat → step s = .next s) ∧
  ∀ (s : State) (x : Reg), s.fetch = encodeXKK 0xF#4 x 0x0A#8 → s.key = 0#16 → step s = .next s

/-- R100, R102 (95_test_vectors.md A6): a call and then a return come back to the word after the call, with the stack
depth and every live slot as they were. -/
def Obligations.CallThenReturn : Prop :=
  ∀ (s t u : State) (nnn : Imm12), s.fetch = encodeNNN 0x2#4 nnn → s.sp.val < 16 → step s = .next t →
    t.fetch = 0x00EE#16 → step t = .next u →
      u.pc = s.pc + 2#16 ∧ u.sp = s.sp ∧ ∀ k : Fin 16, k.val < s.sp.val → u.stack[k] = s.stack[k]

/-- R26, R132: exactly the executed `Cxkk` draw from the random source, one byte each, and no host transaction draws
or rewinds it.  The counted position is the model's form (log 1). -/
def Obligations.OneDrawPerRandom : Prop :=
  (∀ (s t : State) (x : Reg) (kk : Byte), decode s.fetch = .rnd x kk → step s = .next t → t.draws = s.draws + 1) ∧
  (∀ s t : State, (∀ (x : Reg) (kk : Byte), decode s.fetch ≠ .rnd x kk) → step s = .next t → t.draws = s.draws) ∧
  ∀ (s u : State) (c : Transaction) (r : Response), c ≠ .step → transact c s = .next (u, r) → u.draws = s.draws

/-! ## Reset and the host (60_exceptions.md, 70_reset_and_hazards.md) -/

/-- R27: the power-on state for every font, and the state after `reset()` from any state. -/
def Obligations.PowerOnAndResetValues : Prop :=
  (∀ font : Vector Byte 80,
    HasResetValues (State.powerOn font) ∧
    (∀ a : Fin 80, Memory.read (State.powerOn font).mem a.val = font[a]) ∧
    ∀ a, 80 ≤ a → a < 4096 → Memory.read (State.powerOn font).mem a = 0#8) ∧
  ∀ s : State, HasResetValues s.resetCall ∧
    (∀ a, a < 80 → Memory.read s.resetCall.mem a = Memory.read s.mem a) ∧
    ∀ a, 80 ≤ a → a < 4096 → Memory.read s.resetCall.mem a = 0#8

/-- The reset state is the power-on state with the spec's default font (PRESUMED, log 2) and meets the invariant. -/
def Obligations.ResetStateIsPowerOn : Prop :=
  State.reset.Inv ∧ ∃ font : Vector Byte 80, font.toList = fontTable ∧ State.reset = State.powerOn font

/-- R192: two resets are as good as one, and right after power-on a reset changes nothing. -/
def Obligations.ResetIsIdempotent : Prop :=
  (∀ s : State, s.resetCall.resetCall = s.resetCall) ∧
  ∀ font : Vector Byte 80, (State.powerOn font).resetCall = State.powerOn font

/-- R196, R173: a load copies the image to 512 onward and changes nothing else; an image of more than 3584 bytes is
refused and changes nothing. -/
def Obligations.LoadProgramContract : Prop :=
  ∀ (s : State) (bytes : List Byte),
    (bytes.length ≤ 3584 → ∃ u, transact (.loadProgram bytes) s = .next (u, .done) ∧
      (∀ k (h : k < bytes.length), Memory.read u.mem (512 + k) = bytes[k]) ∧
      ChangesOnly { mem := fun a => 512 ≤ a ∧ a < 512 + bytes.length } s u) ∧
    (3584 < bytes.length → transact (.loadProgram bytes) s = .next (s, .loadError))

/-- R180: `n` ticks take `n` from each timer, floor at 0, and change nothing else.  R180, R205: no time passes in
anything else: a step changes `DT` only by `Fx15` and `ST` only by `Fx18`, and of the host's other transactions only
`reset()` changes a timer. -/
def Obligations.TicksCountDownToZero : Prop :=
  (∀ (n : Nat) (s : State), ∃ u, runTransactions (List.replicate n .tickTimers) s = .next u ∧
    u.dt.toNat = s.dt.toNat - n ∧ u.st.toNat = s.st.toNat - n ∧ ChangesOnly { dt := True, st := True } s u) ∧
  (∀ s t : State, step s = .next t →
    ((∀ x, decode s.fetch ≠ .ldDTVx x) → t.dt = s.dt) ∧ ((∀ x, decode s.fetch ≠ .ldSTVx x) → t.st = s.st)) ∧
  ∀ (s u : State) (c : Transaction) (r : Response), c ≠ .tickTimers → c ≠ .reset → c ≠ .step →
    transact c s = .next (u, r) → u.dt = s.dt ∧ u.st = s.st

/-- R182, R174: `set_key` stores the level it is given for one key; an index out of range is refused. -/
def Obligations.SetKeyStoresLevel : Prop :=
  ∀ (s : State) (index : Nat) (pressed : Bool),
    (index < 16 → ∃ u, transact (.setKey index pressed) s = .next (u, .done) ∧ u.keyDown index = pressed ∧
      (∀ k, k ≠ index → u.keyDown k = s.keyDown k) ∧ ChangesOnly { keys := True } s u) ∧
    (16 ≤ index → transact (.setKey index pressed) s = .next (s, .preconditionFailure))

/-- R181, R174: the display calls. -/
def Obligations.DisplayCalls : Prop :=
  ∀ s : State,
    transact .drawFlag s = .next (s, .bit s.draw) ∧
    (∃ u, transact .clearDrawFlag s = .next (u, .done) ∧ u.draw = false ∧ ChangesOnly { draw := True } s u) ∧
    (∀ c, c < 2048 → transact (.pixel c) s = .next (s, .bit (s.cell c))) ∧
    ∀ c, 2048 ≤ c → transact (.pixel c) s = .next (s, .preconditionFailure)

/-! ## Invariants of steps and runs -/

/-- Every step keeps memory in canonical form. -/
def Obligations.StepKeepsCanonicalMemory : Prop :=
  ∀ s t : State, s.Inv → step s = .next t → t.Inv

/-- Memory is in canonical form in every state that any run of steps and host transactions reaches from power-on with
any font (R177). -/
def Obligations.ReachableMemoryIsCanonical : Prop := ∀ s : State, Reachable s → s.Inv

/-- R170, R177: no run of steps and host transactions ever stops, in whatever order they come and from any state. -/
def Obligations.RunsNeverStop : Prop :=
  ∀ (ts : List Transaction) (s : State), ∃ u, runTransactions ts s = .next u

/-- R28, R21: in a run without `reset()`, the bits of `ERR` only ever go from 0 to 1. -/
def Obligations.ErrOnlyRisesBetweenResets : Prop :=
  ∀ (ts : List Transaction) (s u : State), Transaction.reset ∉ ts → runTransactions ts s = .next u →
    ∀ b, s.err.getLsbD b = true → u.err.getLsbD b = true
end

