-- ==== Sys2Proof/Laws/Display.lean ====
section
/-! SUPPORT. What a sprite draw does to the framebuffer, said once without the loop (44_display.md R151 to R153). -/

namespace Sys2Proof.Machine

/-! ## Cells -/

theorem pictureCell_flipCell (fb : Picture) (t c : Nat) (ht : t < Config.fbCells) :
    pictureCell (flipCell fb t) c = (pictureCell fb c ^^ decide (t = c)) := by
  simp only [Config.fbCells] at ht
  have h32 : t / 64 < 32 := by omega
  unfold pictureCell pictureRow flipCell
  rw [dif_pos h32]
  by_cases hc : c / 64 < 32
  · rw [dif_pos hc, dif_pos hc, Vector.getElem_set]
    by_cases hrow : t / 64 = c / 64
    · have hbit : (1#64 <<< (t % 64)).getLsbD (c % 64) = decide (t = c) := by
        simp only [BitVec.getLsbD_shiftLeft, BitVec.getLsbD_one]
        by_cases h : t = c
        · subst h; simp [show t % 64 < 64 by omega]
        · by_cases h2 : c % 64 < t % 64
          · simp [h2, h]
          · simp [h2, h, show ¬ c % 64 - t % 64 = 0 by omega]
      simp only [hrow, if_true, BitVec.getLsbD_xor, hbit]
    · have : ¬ t = c := fun h => hrow (by rw [h])
      simp [hrow, this]
  · have : ¬ t = c := fun h => hc (by rw [← h]; exact h32)
    simp [hc, this]

@[simp] theorem pictureCell_blank (c : Nat) : pictureCell blankPicture c = false := by
  unfold pictureCell pictureRow blankPicture
  split <;> simp

/-- There are no cells from 2048 on. -/
theorem pictureCell_of_le (fb : Picture) {c : Nat} (h : Config.fbCells ≤ c) : pictureCell fb c = false := by
  simp only [Config.fbCells] at h
  unfold pictureCell pictureRow
  simp [show ¬ c / 64 < 32 by omega]

/-- A picture is its cells. -/
theorem picture_ext {f g : Picture} (h : ∀ c, c < Config.fbCells → pictureCell f c = pictureCell g c) : f = g := by
  apply Vector.ext
  intro r hr
  apply BitVec.eq_of_getLsbD_eq
  intro j hj
  have := h (r * 64 + j) (by simp only [Config.fbCells]; omega)
  simpa [pictureCell, pictureRow, show (r * 64 + j) / 64 = r by omega, show (r * 64 + j) % 64 = j by omega, hr]
    using this

theorem targetCell_lt (vx vy row col : Nat) : targetCell vx vy row col < Config.fbCells :=
  Nat.mod_lt _ (by decide)

/-- Different pixels of one sprite have different cells (R153 (a)), as long as rows stay within 0 to 15. -/
theorem targetCell_inj {vx vy r c r' c' : Nat} (hr : r < 16) (hr' : r' < 16) (hc : c < 8) (hc' : c' < 8)
    (h : targetCell vx vy r c = targetCell vx vy r' c') : r = r' ∧ c = c' := by
  simp only [targetCell, Config.fbWidth, Config.fbCells] at h
  omega

/-! ## The loop -/

/-- A canvas reached from another by flipping the cells of a set of pixels, each once, with the collision recorded. -/
structure Drawn (hit : Nat → Prop) (p q : Canvas) : Prop where
  cell : ∀ c, pictureCell q.1 c = true ↔ ¬ (pictureCell p.1 c = true ↔ hit c)
  coll : q.2 = true ↔ p.2 = true ∨ ∃ c, hit c ∧ pictureCell p.1 c = true

theorem Drawn.refl {hit : Nat → Prop} (p : Canvas) (h : ∀ c, ¬ hit c) : Drawn hit p p where
  cell c := by simp [h c]
  coll := by simp [h]

theorem Drawn.trans {h₁ h₂ h : Nat → Prop} {p q r : Canvas} (a : Drawn h₁ p q) (b : Drawn h₂ q r)
    (disj : ∀ c, h₁ c → ¬ h₂ c) (hh : ∀ c, h c ↔ h₁ c ∨ h₂ c) : Drawn h p r where
  cell c := by
    rw [b.cell, a.cell, hh]
    have := disj c
    tauto
  coll := by
    rw [b.coll, a.coll, or_assoc]
    refine or_congr_right ⟨?_, ?_⟩
    · rintro (⟨c, h1, h2⟩ | ⟨c, h1, h2⟩)
      · exact ⟨c, (hh c).2 (.inl h1), h2⟩
      · refine ⟨c, (hh c).2 (.inr h1), ?_⟩
        rw [a.cell] at h2
        have := disj c
        tauto
    · rintro ⟨c, h1, h2⟩
      rcases (hh c).1 h1 with h1 | h1
      · exact .inl ⟨c, h1, h2⟩
      · refine .inr ⟨c, h1, ?_⟩
        rw [a.cell]
        have := disj c
        tauto

theorem drawPixel_drawn (on : Bool) (t : Nat) (ht : t < Config.fbCells) (p : Canvas) :
    Drawn (fun c => on = true ∧ t = c) p (drawPixel on t p) := by
  cases on with
  | false => exact Drawn.refl p (by simp)
  | true =>
    constructor
    · intro c
      simp only [drawPixel, if_true, pictureCell_flipCell _ _ _ ht]
      by_cases h : t = c <;> simp [h]
    · simp [drawPixel]

/-- The columns of one row from `col` on. -/
theorem drawRow_drawn (vx vy row : Nat) (b : Byte) (k col : Nat) (h : col + k = 8) (hrow : row < 16) (p : Canvas) :
    Drawn (fun c => ∃ j, col ≤ j ∧ j < 8 ∧ b.getLsbD (7 - j) = true ∧ targetCell vx vy row j = c) p
      (drawRow vx vy row b col k p) := by
  induction k generalizing col p with
  | zero => exact Drawn.refl p (by rintro c ⟨j, h1, h2, -⟩; omega)
  | succ k ih =>
    rw [drawRow]
    refine Drawn.trans (drawPixel_drawn _ _ (targetCell_lt ..) p) (ih (col + 1) (by omega) _) ?_ ?_
    · rintro c ⟨-, h1⟩ ⟨j, hj, hj8, -, h2⟩
      have := targetCell_inj hrow hrow (by omega) hj8 (h1.trans h2.symm)
      omega
    · intro c
      constructor
      · rintro ⟨j, hj, hj8, hb, ht⟩
        rcases Nat.eq_or_lt_of_le hj with rfl | hlt
        · exact .inl ⟨hb, ht⟩
        · exact .inr ⟨j, hlt, hj8, hb, ht⟩
      · rintro (⟨hb, ht⟩ | ⟨j, hj, hj8, hb, ht⟩)
        · exact ⟨col, le_rfl, by omega, hb, ht⟩
        · exact ⟨j, by omega, hj8, hb, ht⟩

/-- The rows of a sprite from `row` on. -/
theorem drawRows_drawn (vx vy : Nat) (sprite : Nat → Byte) (k row : Nat) (h : row + k ≤ 16) (p : Canvas) :
    Drawn (fun c => ∃ i, row ≤ i ∧ i < row + k ∧ ∃ j, j < 8 ∧ (sprite i).getLsbD (7 - j) = true ∧
      targetCell vx vy i j = c) p (drawRows vx vy sprite row k p) := by
  induction k generalizing row p with
  | zero => exact Drawn.refl p (by rintro c ⟨i, h1, h2, -⟩; omega)
  | succ k ih =>
    rw [drawRows]
    refine Drawn.trans (drawRow_drawn vx vy row (sprite row) 8 0 rfl (by omega) p) (ih (row + 1) (by omega) _) ?_ ?_
    · rintro c ⟨j, -, hj, -, h1⟩ ⟨i, hi, hik, j', hj', -, h2⟩
      have := targetCell_inj (by omega) (by omega) hj hj' (h1.trans h2.symm)
      omega
    · intro c
      constructor
      · rintro ⟨i, hi, hik, j, hj, hb, ht⟩
        rcases Nat.eq_or_lt_of_le hi with rfl | hlt
        · exact .inl ⟨j, Nat.zero_le _, hj, hb, ht⟩
        · exact .inr ⟨i, hlt, by omega, j, hj, hb, ht⟩
      · rintro (⟨j, -, hj, hb, ht⟩ | ⟨i, hi, hik, j, hj, hb, ht⟩)
        · exact ⟨row, le_rfl, by omega, j, hj, hb, ht⟩
        · exact ⟨i, by omega, by omega, j, hj, hb, ht⟩

end Sys2Proof.Machine
end

