-- ==== Sys2Proof/Laws/Encoding.lean ====
section
/-! SUPPORT. Fields of assembled words, and words assembled from fields (30_encoding.md R60). -/

namespace Sys2Proof

/-! ## Words as numbers -/

@[simp] theorem regField_toNat (r : Reg) : (regField r).toNat = r.val := rfl

theorem encodeXYN_toNat (op : Nibble) (x y : Reg) (n : Nibble) :
    (encodeXYN op x y n).toNat = op.toNat * 4096 + x.val * 256 + y.val * 16 + n.toNat := by
  have hn := n.isLt
  simp only [encodeXYN, BitVec.toNat_append, regField_toNat]
  rw [← Nat.shiftLeft_add_eq_or_of_lt hn, ← Nat.shiftLeft_add_eq_or_of_lt (by simp),
    ← Nat.shiftLeft_add_eq_or_of_lt (by simp)]
  simp only [Nat.shiftLeft_eq]; omega

theorem encodeXKK_toNat (op : Nibble) (x : Reg) (kk : Byte) :
    (encodeXKK op x kk).toNat = op.toNat * 4096 + x.val * 256 + kk.toNat := by
  have hk := kk.isLt
  simp only [encodeXKK, BitVec.toNat_append, regField_toNat]
  rw [← Nat.shiftLeft_add_eq_or_of_lt hk, ← Nat.shiftLeft_add_eq_or_of_lt (by simp)]
  simp only [Nat.shiftLeft_eq]; omega

theorem encodeNNN_toNat (op : Nibble) (nnn : Imm12) :
    (encodeNNN op nnn).toNat = op.toNat * 4096 + nnn.toNat := by
  have hk := nnn.isLt
  simp only [encodeNNN, BitVec.toNat_append]
  rw [← Nat.shiftLeft_add_eq_or_of_lt hk]
  simp only [Nat.shiftLeft_eq]

theorem fieldOp_toNat (w : Word) : (fieldOp w).toNat = w.toNat / 4096 := by
  have := w.isLt
  simp only [fieldOp, BitVec.extractLsb'_toNat, Nat.shiftRight_eq_div_pow]; omega

theorem fieldX_val (w : Word) : (fieldX w).val = w.toNat / 256 % 16 := by
  simp only [fieldX, BitVec.val_toFin, BitVec.extractLsb'_toNat, Nat.shiftRight_eq_div_pow]

theorem fieldY_val (w : Word) : (fieldY w).val = w.toNat / 16 % 16 := by
  simp only [fieldY, BitVec.val_toFin, BitVec.extractLsb'_toNat, Nat.shiftRight_eq_div_pow]

theorem fieldN_toNat (w : Word) : (fieldN w).toNat = w.toNat % 16 := by
  simp only [fieldN, BitVec.extractLsb'_toNat, Nat.shiftRight_eq_div_pow]; omega

theorem fieldKK_toNat (w : Word) : (fieldKK w).toNat = w.toNat % 256 := by
  simp only [fieldKK, BitVec.extractLsb'_toNat, Nat.shiftRight_eq_div_pow]; omega

theorem fieldNNN_toNat (w : Word) : (fieldNNN w).toNat = w.toNat % 4096 := by
  simp only [fieldNNN, BitVec.extractLsb'_toNat, Nat.shiftRight_eq_div_pow]; omega

/-! ## The fields of an assembled word -/

@[simp] theorem fieldOp_encodeXYN (op : Nibble) (x y : Reg) (n : Nibble) : fieldOp (encodeXYN op x y n) = op := by
  apply BitVec.eq_of_toNat_eq; rw [fieldOp_toNat, encodeXYN_toNat]; omega

@[simp] theorem fieldX_encodeXYN (op : Nibble) (x y : Reg) (n : Nibble) : fieldX (encodeXYN op x y n) = x := by
  apply Fin.ext; rw [fieldX_val, encodeXYN_toNat]; omega

@[simp] theorem fieldY_encodeXYN (op : Nibble) (x y : Reg) (n : Nibble) : fieldY (encodeXYN op x y n) = y := by
  apply Fin.ext; rw [fieldY_val, encodeXYN_toNat]; omega

@[simp] theorem fieldN_encodeXYN (op : Nibble) (x y : Reg) (n : Nibble) : fieldN (encodeXYN op x y n) = n := by
  apply BitVec.eq_of_toNat_eq; rw [fieldN_toNat, encodeXYN_toNat]; omega

@[simp] theorem fieldOp_encodeXKK (op : Nibble) (x : Reg) (kk : Byte) : fieldOp (encodeXKK op x kk) = op := by
  apply BitVec.eq_of_toNat_eq; rw [fieldOp_toNat, encodeXKK_toNat]; omega

@[simp] theorem fieldX_encodeXKK (op : Nibble) (x : Reg) (kk : Byte) : fieldX (encodeXKK op x kk) = x := by
  apply Fin.ext; rw [fieldX_val, encodeXKK_toNat]; omega

@[simp] theorem fieldKK_encodeXKK (op : Nibble) (x : Reg) (kk : Byte) : fieldKK (encodeXKK op x kk) = kk := by
  apply BitVec.eq_of_toNat_eq; rw [fieldKK_toNat, encodeXKK_toNat]; omega

@[simp] theorem fieldOp_encodeNNN (op : Nibble) (nnn : Imm12) : fieldOp (encodeNNN op nnn) = op := by
  apply BitVec.eq_of_toNat_eq; rw [fieldOp_toNat, encodeNNN_toNat]; omega

@[simp] theorem fieldNNN_encodeNNN (op : Nibble) (nnn : Imm12) : fieldNNN (encodeNNN op nnn) = nnn := by
  apply BitVec.eq_of_toNat_eq; rw [fieldNNN_toNat, encodeNNN_toNat]; omega

/-! ## A word from its fields -/

theorem encodeXYN_fields (w : Word) : encodeXYN (fieldOp w) (fieldX w) (fieldY w) (fieldN w) = w := by
  apply BitVec.eq_of_toNat_eq
  rw [encodeXYN_toNat, fieldOp_toNat, fieldX_val, fieldY_val, fieldN_toNat]; omega

theorem encodeXKK_fields (w : Word) : encodeXKK (fieldOp w) (fieldX w) (fieldKK w) = w := by
  apply BitVec.eq_of_toNat_eq
  rw [encodeXKK_toNat, fieldOp_toNat, fieldX_val, fieldKK_toNat]; omega

theorem encodeNNN_fields (w : Word) : encodeNNN (fieldOp w) (fieldNNN w) = w := by
  apply BitVec.eq_of_toNat_eq
  rw [encodeNNN_toNat, fieldOp_toNat, fieldNNN_toNat]; omega

/-! ## Masks of the opcode table -/

theorem rowMatches_iff (r : OpcodeRow) (w : Word) : rowMatches r w = true ↔ w &&& r.mask = r.pattern := by
  simp [rowMatches]

theorem encodeNNN_getLsbD (op : Nibble) (nnn : Imm12) (i : Nat) :
    (encodeNNN op nnn).getLsbD i = if i < 12 then nnn.getLsbD i else op.getLsbD (i - 12) := by
  exact (BitVec.getLsbD_append (x := op) (y := nnn)).trans (by by_cases h : i < 12 <;> simp [h])

theorem encodeXKK_getLsbD (op : Nibble) (x : Reg) (kk : Byte) (i : Nat) :
    (encodeXKK op x kk).getLsbD i =
      if i < 8 then kk.getLsbD i else if i < 12 then (regField x).getLsbD (i - 8) else op.getLsbD (i - 12) := by
  refine (BitVec.getLsbD_append (x := op ++ regField x) (y := kk)).trans ?_
  rw [BitVec.getLsbD_append (x := op) (y := regField x)]
  by_cases h : i < 8
  · simp [h]
  · by_cases h' : i < 12
    · simp [h, h', show i - 8 < 4 by omega]
    · simp [h, h', show ¬ i - 8 < 4 by omega, show i - 8 - 4 = i - 12 by omega]

theorem encodeXYN_eq_encodeXKK (op : Nibble) (x y : Reg) (n : Nibble) :
    encodeXYN op x y n = encodeXKK op x (regField y ++ n) := by
  apply BitVec.eq_of_toNat_eq
  rw [encodeXYN_toNat, encodeXKK_toNat, BitVec.toNat_append, ← Nat.shiftLeft_add_eq_or_of_lt n.isLt]
  simp only [Nat.shiftLeft_eq, regField_toNat]; omega

/-- Mask `F000` keeps `op`. -/
theorem mask_op (w : Word) : w &&& 0xF000#16 = encodeNNN (fieldOp w) 0#12 := by
  apply BitVec.eq_of_getLsbD_eq
  intro i hi
  rw [encodeNNN_getLsbD]
  interval_cases i <;> simp [fieldOp]

/-- Mask `F00F` keeps `op` and `n`. -/
theorem mask_op_n (w : Word) : w &&& 0xF00F#16 = encodeXYN (fieldOp w) 0 0 (fieldN w) := by
  apply BitVec.eq_of_getLsbD_eq
  intro i hi
  rw [encodeXYN_eq_encodeXKK, encodeXKK_getLsbD, BitVec.getLsbD_append]
  interval_cases i <;> simp [regField, fieldOp, fieldN]

/-- Mask `F0FF` keeps `op` and `kk`. -/
theorem mask_op_kk (w : Word) : w &&& 0xF0FF#16 = encodeXKK (fieldOp w) 0 (fieldKK w) := by
  apply BitVec.eq_of_getLsbD_eq
  intro i hi
  rw [encodeXKK_getLsbD]
  interval_cases i <;> simp [regField, fieldOp, fieldKK]

/-- Mask `FFFF` keeps the word. -/
theorem mask_all (w : Word) : w &&& 0xFFFF#16 = w := by
  apply BitVec.eq_of_getLsbD_eq
  intro i hi
  interval_cases i <;> simp

/-! ## When a word matches a row, by its fields -/

theorem rowMatches_all (p w : Word) : rowMatches ⟨p, 0xFFFF#16⟩ w = true ↔ w = p := by
  rw [rowMatches_iff, mask_all]

theorem rowMatches_op (op : Nibble) (w : Word) :
    rowMatches ⟨encodeNNN op 0#12, 0xF000#16⟩ w = true ↔ fieldOp w = op := by
  rw [rowMatches_iff, mask_op]
  exact ⟨fun h => by simpa using congrArg fieldOp h, fun h => by rw [h]⟩

theorem rowMatches_op_n (op n : Nibble) (w : Word) :
    rowMatches ⟨encodeXYN op 0 0 n, 0xF00F#16⟩ w = true ↔ fieldOp w = op ∧ fieldN w = n := by
  rw [rowMatches_iff, mask_op_n]
  exact ⟨fun h => ⟨by simpa using congrArg fieldOp h, by simpa using congrArg fieldN h⟩,
    fun h => by rw [h.1, h.2]⟩

theorem rowMatches_op_kk (op : Nibble) (kk : Byte) (w : Word) :
    rowMatches ⟨encodeXKK op 0 kk, 0xF0FF#16⟩ w = true ↔ fieldOp w = op ∧ fieldKK w = kk := by
  rw [rowMatches_iff, mask_op_kk]
  exact ⟨fun h => ⟨by simpa using congrArg fieldOp h, by simpa using congrArg fieldKK h⟩,
    fun h => by rw [h.1, h.2]⟩

end Sys2Proof
end

