-- ==== Sys2Proof/Laws/Memory.lean ====
section
/-! SUPPORT. The laws of memory: read after write, writes leave the rest alone, and every operation keeps the canonical
form.  The read laws need no canonical form. -/

namespace Sys2Proof.Machine

/-! ## Reading -/

theorem Memory.wrap_lt (a : Nat) : Memory.wrap a < Config.memSize := Nat.mod_lt _ (by decide)

@[simp] theorem Memory.wrap_wrap (a : Nat) : Memory.wrap (Memory.wrap a) = Memory.wrap a := Nat.mod_mod _ _

@[simp] theorem Memory.read_wrap (m : Memory) (a : Nat) : Memory.read m (Memory.wrap a) = Memory.read m a := by
  simp [Memory.read]

@[simp] theorem Memory.read_nil (a : Nat) : Memory.read [] a = Memory.initByte (Memory.wrap a) := rfl

/-! ## The list operations -/

theorem Memory.lookup_erase_same (m : Memory) (a : Nat) :
    Memory.lookup (Memory.erase m a) a = Memory.initByte a := by
  induction m with
  | nil => rfl
  | cons c rest ih =>
    obtain ⟨k, b⟩ := c
    by_cases h : k = a <;> simp [Memory.erase, Memory.lookup, h, ih]

theorem Memory.lookup_erase_other (m : Memory) {a c : Nat} (h : c ≠ a) :
    Memory.lookup (Memory.erase m a) c = Memory.lookup m c := by
  induction m with
  | nil => rfl
  | cons e rest ih =>
    obtain ⟨k, b⟩ := e
    by_cases hk : k = a
    · subst hk; simp [Memory.erase, Memory.lookup, ih, Ne.symm h]
    · simp only [Memory.erase, if_neg hk, Memory.lookup, ih]

/-- No entry stands at `a`. -/
def Memory.free (m : Memory) (a : Nat) : Prop := ∀ c ∈ m, c.1 ≠ a

theorem Memory.free_erase (m : Memory) (a : Nat) : Memory.free (Memory.erase m a) a := by
  induction m with
  | nil => intro c hc; cases hc
  | cons e rest ih =>
    obtain ⟨k, b⟩ := e
    by_cases hk : k = a
    · simpa [Memory.erase, hk] using ih
    · intro c hc
      simp only [Memory.erase, if_neg hk, List.mem_cons] at hc
      rcases hc with rfl | hc
      · exact hk
      · exact ih c hc

theorem Memory.lookup_insert_same (m : Memory) (a : Nat) (v : Byte) (h : Memory.free m a) :
    Memory.lookup (Memory.insert m a v) a = v := by
  induction m with
  | nil => simp [Memory.insert, Memory.lookup]
  | cons e rest ih =>
    obtain ⟨k, b⟩ := e
    have hk : k ≠ a := h (k, b) (by simp)
    have hr : Memory.free rest a := fun c hc => h c (by simp [hc])
    by_cases hlt : a < k <;> simp [Memory.insert, Memory.lookup, hlt, hk, ih hr]

theorem Memory.lookup_insert_other (m : Memory) {a c : Nat} (v : Byte) (h : c ≠ a) :
    Memory.lookup (Memory.insert m a v) c = Memory.lookup m c := by
  induction m with
  | nil => simp [Memory.insert, Memory.lookup, Ne.symm h]
  | cons e rest ih =>
    obtain ⟨k, b⟩ := e
    by_cases hlt : a < k
    · simp [Memory.insert, Memory.lookup, hlt, Ne.symm h]
    · simp only [Memory.insert, if_neg hlt, Memory.lookup, ih]

/-! ## Read after write (20_memory.md R42) -/

theorem Memory.read_write_same (m : Memory) {a c : Nat} (v : Byte) (h : Memory.wrap c = Memory.wrap a) :
    Memory.read (Memory.write m a v) c = v := by
  unfold Memory.read Memory.write Memory.store
  rw [h]
  split
  · next hv => rw [Memory.lookup_erase_same, hv]
  · exact Memory.lookup_insert_same _ _ _ (Memory.free_erase _ _)

theorem Memory.read_write_other (m : Memory) {a c : Nat} (v : Byte) (h : Memory.wrap c ≠ Memory.wrap a) :
    Memory.read (Memory.write m a v) c = Memory.read m c := by
  unfold Memory.read Memory.write Memory.store
  split
  · exact Memory.lookup_erase_other _ h
  · rw [Memory.lookup_insert_other _ _ h, Memory.lookup_erase_other _ h]

/-- Bytes outside the written addresses are as before (R42). -/
theorem Memory.read_writeBytes_other (bs : List Byte) (m : Memory) (a c : Nat)
    (h : ∀ k, k < bs.length → Memory.wrap c ≠ Memory.wrap (a + k)) :
    Memory.read (Memory.writeBytes m a bs) c = Memory.read m c := by
  induction bs generalizing m a with
  | nil => rfl
  | cons b rest ih =>
    rw [Memory.writeBytes, ih]
    · exact Memory.read_write_other m b (by simpa using h 0 (by simp))
    · intro k hk
      have := h (k + 1) (by simpa using hk)
      rwa [show a + 1 + k = a + (k + 1) by omega]

/-- The bytes written are the bytes read back, as long as they do not wrap onto themselves (R42, R44). -/
theorem Memory.read_writeBytes_same (bs : List Byte) (m : Memory) (a k : Nat)
    (hlen : bs.length ≤ Config.memSize) (hk : k < bs.length) :
    Memory.read (Memory.writeBytes m a bs) (a + k) = bs[k] := by
  induction bs generalizing m a k with
  | nil => simp at hk
  | cons b rest ih =>
    simp only [List.length_cons] at hlen hk
    rw [Memory.writeBytes]
    cases k with
    | zero =>
      rw [Memory.read_writeBytes_other]
      · simpa using Memory.read_write_same m b rfl
      · intro j hj
        simp only [Memory.wrap, Config.memSize] at *
        omega
    | succ k =>
      rw [show a + (k + 1) = a + 1 + k by omega, ih (Memory.write m a b) (a + 1) k (by omega) (by omega)]
      simp

/-! ## The canonical form is kept -/

theorem Memory.wfFrom_cons {lo k : Nat} {b : Byte} {rest : Memory} :
    Memory.wfFrom lo ((k, b) :: rest) = true ↔
      lo ≤ k ∧ k < Config.memSize ∧ b ≠ Memory.initByte k ∧ Memory.wfFrom (k + 1) rest = true := by
  simp only [Memory.wfFrom, Bool.and_eq_true, decide_eq_true_eq, and_assoc]

theorem Memory.wfFrom_mono {m : Memory} {lo lo' : Nat} (h : lo' ≤ lo) (hm : Memory.wfFrom lo m = true) :
    Memory.wfFrom lo' m = true := by
  cases m with
  | nil => rfl
  | cons e rest =>
    obtain ⟨k, b⟩ := e
    rw [Memory.wfFrom_cons] at hm ⊢
    exact ⟨h.trans hm.1, hm.2⟩

theorem Memory.wfFrom_erase {m : Memory} {lo : Nat} (a : Nat) (hm : Memory.wfFrom lo m = true) :
    Memory.wfFrom lo (Memory.erase m a) = true := by
  induction m generalizing lo with
  | nil => rfl
  | cons e rest ih =>
    obtain ⟨k, b⟩ := e
    rw [Memory.wfFrom_cons] at hm
    by_cases hk : k = a
    · simpa [Memory.erase, hk] using Memory.wfFrom_mono (by omega) (ih hm.2.2.2)
    · simp only [Memory.erase, if_neg hk, Memory.wfFrom_cons]
      exact ⟨hm.1, hm.2.1, hm.2.2.1, ih hm.2.2.2⟩

theorem Memory.wfFrom_insert {m : Memory} {lo a : Nat} {v : Byte} (hm : Memory.wfFrom lo m = true)
    (hf : Memory.free m a) (hlo : lo ≤ a) (ha : a < Config.memSize) (hv : v ≠ Memory.initByte a) :
    Memory.wfFrom lo (Memory.insert m a v) = true := by
  induction m generalizing lo with
  | nil => exact Memory.wfFrom_cons.2 ⟨hlo, ha, hv, rfl⟩
  | cons e rest ih =>
    obtain ⟨k, b⟩ := e
    rw [Memory.wfFrom_cons] at hm
    have hk : k ≠ a := hf (k, b) (by simp)
    by_cases hlt : a < k
    · simp only [Memory.insert, if_pos hlt, Memory.wfFrom_cons]
      exact ⟨hlo, ha, hv, by omega, hm.2.1, hm.2.2.1, hm.2.2.2⟩
    · simp only [Memory.insert, if_neg hlt, Memory.wfFrom_cons]
      exact ⟨hm.1, hm.2.1, hm.2.2.1, ih hm.2.2.2 (fun c hc => hf c (by simp [hc])) (by omega)⟩

theorem Memory.wf_write {m : Memory} (a : Nat) (v : Byte) (hm : Memory.wf m = true) :
    Memory.wf (Memory.write m a v) = true := by
  unfold Memory.write Memory.store Memory.wf
  split
  · exact Memory.wfFrom_erase _ hm
  · next hv =>
    exact Memory.wfFrom_insert (Memory.wfFrom_erase _ hm) (Memory.free_erase _ _) (Nat.zero_le _)
      (Memory.wrap_lt a) hv

theorem Memory.wf_writeBytes (bs : List Byte) {m : Memory} (a : Nat) (hm : Memory.wf m = true) :
    Memory.wf (Memory.writeBytes m a bs) = true := by
  induction bs generalizing m a with
  | nil => exact hm
  | cons b rest ih => exact ih (a + 1) (Memory.wf_write a b hm)

theorem Memory.wfFrom_clearAboveFont {m : Memory} {lo : Nat} (hm : Memory.wfFrom lo m = true) :
    Memory.wfFrom lo (Memory.clearAboveFont m) = true := by
  induction m generalizing lo with
  | nil => rfl
  | cons e rest ih =>
    obtain ⟨k, b⟩ := e
    rw [Memory.wfFrom_cons] at hm
    have ih' := ih hm.2.2.2
    unfold Memory.clearAboveFont at ih' ⊢
    rw [List.filter_cons]
    split
    · exact Memory.wfFrom_cons.2 ⟨hm.1, hm.2.1, hm.2.2.1, ih'⟩
    · exact Memory.wfFrom_mono (by omega) ih'

theorem Memory.wf_clearAboveFont {m : Memory} (hm : Memory.wf m = true) :
    Memory.wf (Memory.clearAboveFont m) = true := Memory.wfFrom_clearAboveFont hm

/-- `reset()` leaves the font region as it was and zeroes the rest (70_reset_and_hazards.md R191). -/
theorem Memory.read_clearAboveFont (m : Memory) (a : Nat) :
    Memory.read (Memory.clearAboveFont m) a =
      if Memory.wrap a < Config.fontLen then Memory.read m a else 0#8 := by
  unfold Memory.read
  generalize Memory.wrap a = c
  induction m with
  | nil =>
    by_cases hc : c < Config.fontLen
    · rw [if_pos hc]; rfl
    · rw [if_neg hc]; simp only [Memory.clearAboveFont, List.filter_nil, Memory.lookup, Memory.initByte, if_neg hc]
  | cons e rest ih =>
    obtain ⟨k, b⟩ := e
    unfold Memory.clearAboveFont at ih ⊢
    rw [List.filter_cons]
    by_cases hk : k < Config.fontLen
    · by_cases hc : k = c
      · subst hc; simp [Memory.lookup, hk]
      · simp only [hk, decide_true, if_true, Memory.lookup, if_neg hc, ih]
    · by_cases hc : k = c
      · subst hc; simpa [hk] using ih
      · simp only [hk, decide_false, Memory.lookup, if_neg hc]; simpa using ih

end Sys2Proof.Machine
end

