-- ==== Sys2Proof/Laws/State.lean ====
section
/-! SUPPORT. One lemma per field per update of the state, so that no proof unfolds a record update; and what reading a
register gives after a write. -/

namespace Sys2Proof.Machine

variable (s : State)

/-! ## writeV -/

@[simp] theorem State.writeV_v (r : Reg) (b : Byte) : (s.writeV r b).v = s.v.set r b := rfl
@[simp] theorem State.writeV_index (r : Reg) (b : Byte) : (s.writeV r b).index = s.index := rfl
@[simp] theorem State.writeV_pc (r : Reg) (b : Byte) : (s.writeV r b).pc = s.pc := rfl
@[simp] theorem State.writeV_stack (r : Reg) (b : Byte) : (s.writeV r b).stack = s.stack := rfl
@[simp] theorem State.writeV_sp (r : Reg) (b : Byte) : (s.writeV r b).sp = s.sp := rfl
@[simp] theorem State.writeV_dt (r : Reg) (b : Byte) : (s.writeV r b).dt = s.dt := rfl
@[simp] theorem State.writeV_st (r : Reg) (b : Byte) : (s.writeV r b).st = s.st := rfl
@[simp] theorem State.writeV_fb (r : Reg) (b : Byte) : (s.writeV r b).fb = s.fb := rfl
@[simp] theorem State.writeV_draw (r : Reg) (b : Byte) : (s.writeV r b).draw = s.draw := rfl
@[simp] theorem State.writeV_key (r : Reg) (b : Byte) : (s.writeV r b).key = s.key := rfl
@[simp] theorem State.writeV_err (r : Reg) (b : Byte) : (s.writeV r b).err = s.err := rfl
@[simp] theorem State.writeV_mem (r : Reg) (b : Byte) : (s.writeV r b).mem = s.mem := rfl
@[simp] theorem State.writeV_draws (r : Reg) (b : Byte) : (s.writeV r b).draws = s.draws := rfl
@[simp] theorem State.cell_writeV (r : Reg) (b : Byte) (c : Nat) : (s.writeV r b).cell c = s.cell c := rfl
@[simp] theorem State.keyDown_writeV (r : Reg) (b : Byte) (j : Nat) : (s.writeV r b).keyDown j = s.keyDown j := rfl

/-! ## writeWithFlag -/

@[simp] theorem State.writeWithFlag_v (x : Reg) (b f : Byte) : (s.writeWithFlag x b f).v = (s.v.set x b).set regVF f := rfl
@[simp] theorem State.writeWithFlag_index (x : Reg) (b f : Byte) : (s.writeWithFlag x b f).index = s.index := rfl
@[simp] theorem State.writeWithFlag_pc (x : Reg) (b f : Byte) : (s.writeWithFlag x b f).pc = s.pc := rfl
@[simp] theorem State.writeWithFlag_stack (x : Reg) (b f : Byte) : (s.writeWithFlag x b f).stack = s.stack := rfl
@[simp] theorem State.writeWithFlag_sp (x : Reg) (b f : Byte) : (s.writeWithFlag x b f).sp = s.sp := rfl
@[simp] theorem State.writeWithFlag_dt (x : Reg) (b f : Byte) : (s.writeWithFlag x b f).dt = s.dt := rfl
@[simp] theorem State.writeWithFlag_st (x : Reg) (b f : Byte) : (s.writeWithFlag x b f).st = s.st := rfl
@[simp] theorem State.writeWithFlag_fb (x : Reg) (b f : Byte) : (s.writeWithFlag x b f).fb = s.fb := rfl
@[simp] theorem State.writeWithFlag_draw (x : Reg) (b f : Byte) : (s.writeWithFlag x b f).draw = s.draw := rfl
@[simp] theorem State.writeWithFlag_key (x : Reg) (b f : Byte) : (s.writeWithFlag x b f).key = s.key := rfl
@[simp] theorem State.writeWithFlag_err (x : Reg) (b f : Byte) : (s.writeWithFlag x b f).err = s.err := rfl
@[simp] theorem State.writeWithFlag_mem (x : Reg) (b f : Byte) : (s.writeWithFlag x b f).mem = s.mem := rfl
@[simp] theorem State.writeWithFlag_draws (x : Reg) (b f : Byte) : (s.writeWithFlag x b f).draws = s.draws := rfl
@[simp] theorem State.cell_writeWithFlag (x : Reg) (b f : Byte) (c : Nat) : (s.writeWithFlag x b f).cell c = s.cell c := rfl
@[simp] theorem State.keyDown_writeWithFlag (x : Reg) (b f : Byte) (j : Nat) : (s.writeWithFlag x b f).keyDown j = s.keyDown j := rfl

/-! ## setIndex -/

@[simp] theorem State.setIndex_v (w : Word) : (s.setIndex w).v = s.v := rfl
@[simp] theorem State.setIndex_index (w : Word) : (s.setIndex w).index = w := rfl
@[simp] theorem State.setIndex_pc (w : Word) : (s.setIndex w).pc = s.pc := rfl
@[simp] theorem State.setIndex_stack (w : Word) : (s.setIndex w).stack = s.stack := rfl
@[simp] theorem State.setIndex_sp (w : Word) : (s.setIndex w).sp = s.sp := rfl
@[simp] theorem State.setIndex_dt (w : Word) : (s.setIndex w).dt = s.dt := rfl
@[simp] theorem State.setIndex_st (w : Word) : (s.setIndex w).st = s.st := rfl
@[simp] theorem State.setIndex_fb (w : Word) : (s.setIndex w).fb = s.fb := rfl
@[simp] theorem State.setIndex_draw (w : Word) : (s.setIndex w).draw = s.draw := rfl
@[simp] theorem State.setIndex_key (w : Word) : (s.setIndex w).key = s.key := rfl
@[simp] theorem State.setIndex_err (w : Word) : (s.setIndex w).err = s.err := rfl
@[simp] theorem State.setIndex_mem (w : Word) : (s.setIndex w).mem = s.mem := rfl
@[simp] theorem State.setIndex_draws (w : Word) : (s.setIndex w).draws = s.draws := rfl
@[simp] theorem State.readV_setIndex (w : Word) (q : Reg) : (s.setIndex w).readV q = s.readV q := rfl
@[simp] theorem State.cell_setIndex (w : Word) (c : Nat) : (s.setIndex w).cell c = s.cell c := rfl
@[simp] theorem State.keyDown_setIndex (w : Word) (j : Nat) : (s.setIndex w).keyDown j = s.keyDown j := rfl

/-! ## setDT -/

@[simp] theorem State.setDT_v (b : Byte) : (s.setDT b).v = s.v := rfl
@[simp] theorem State.setDT_index (b : Byte) : (s.setDT b).index = s.index := rfl
@[simp] theorem State.setDT_pc (b : Byte) : (s.setDT b).pc = s.pc := rfl
@[simp] theorem State.setDT_stack (b : Byte) : (s.setDT b).stack = s.stack := rfl
@[simp] theorem State.setDT_sp (b : Byte) : (s.setDT b).sp = s.sp := rfl
@[simp] theorem State.setDT_dt (b : Byte) : (s.setDT b).dt = b := rfl
@[simp] theorem State.setDT_st (b : Byte) : (s.setDT b).st = s.st := rfl
@[simp] theorem State.setDT_fb (b : Byte) : (s.setDT b).fb = s.fb := rfl
@[simp] theorem State.setDT_draw (b : Byte) : (s.setDT b).draw = s.draw := rfl
@[simp] theorem State.setDT_key (b : Byte) : (s.setDT b).key = s.key := rfl
@[simp] theorem State.setDT_err (b : Byte) : (s.setDT b).err = s.err := rfl
@[simp] theorem State.setDT_mem (b : Byte) : (s.setDT b).mem = s.mem := rfl
@[simp] theorem State.setDT_draws (b : Byte) : (s.setDT b).draws = s.draws := rfl
@[simp] theorem State.readV_setDT (b : Byte) (q : Reg) : (s.setDT b).readV q = s.readV q := rfl
@[simp] theorem State.cell_setDT (b : Byte) (c : Nat) : (s.setDT b).cell c = s.cell c := rfl
@[simp] theorem State.keyDown_setDT (b : Byte) (j : Nat) : (s.setDT b).keyDown j = s.keyDown j := rfl

/-! ## setST -/

@[simp] theorem State.setST_v (b : Byte) : (s.setST b).v = s.v := rfl
@[simp] theorem State.setST_index (b : Byte) : (s.setST b).index = s.index := rfl
@[simp] theorem State.setST_pc (b : Byte) : (s.setST b).pc = s.pc := rfl
@[simp] theorem State.setST_stack (b : Byte) : (s.setST b).stack = s.stack := rfl
@[simp] theorem State.setST_sp (b : Byte) : (s.setST b).sp = s.sp := rfl
@[simp] theorem State.setST_dt (b : Byte) : (s.setST b).dt = s.dt := rfl
@[simp] theorem State.setST_st (b : Byte) : (s.setST b).st = b := rfl
@[simp] theorem State.setST_fb (b : Byte) : (s.setST b).fb = s.fb := rfl
@[simp] theorem State.setST_draw (b : Byte) : (s.setST b).draw = s.draw := rfl
@[simp] theorem State.setST_key (b : Byte) : (s.setST b).key = s.key := rfl
@[simp] theorem State.setST_err (b : Byte) : (s.setST b).err = s.err := rfl
@[simp] theorem State.setST_mem (b : Byte) : (s.setST b).mem = s.mem := rfl
@[simp] theorem State.setST_draws (b : Byte) : (s.setST b).draws = s.draws := rfl
@[simp] theorem State.readV_setST (b : Byte) (q : Reg) : (s.setST b).readV q = s.readV q := rfl
@[simp] theorem State.cell_setST (b : Byte) (c : Nat) : (s.setST b).cell c = s.cell c := rfl
@[simp] theorem State.keyDown_setST (b : Byte) (j : Nat) : (s.setST b).keyDown j = s.keyDown j := rfl

/-! ## setPC -/

@[simp] theorem State.setPC_v (w : Word) : (s.setPC w).v = s.v := rfl
@[simp] theorem State.setPC_index (w : Word) : (s.setPC w).index = s.index := rfl
@[simp] theorem State.setPC_pc (w : Word) : (s.setPC w).pc = w := rfl
@[simp] theorem State.setPC_stack (w : Word) : (s.setPC w).stack = s.stack := rfl
@[simp] theorem State.setPC_sp (w : Word) : (s.setPC w).sp = s.sp := rfl
@[simp] theorem State.setPC_dt (w : Word) : (s.setPC w).dt = s.dt := rfl
@[simp] theorem State.setPC_st (w : Word) : (s.setPC w).st = s.st := rfl
@[simp] theorem State.setPC_fb (w : Word) : (s.setPC w).fb = s.fb := rfl
@[simp] theorem State.setPC_draw (w : Word) : (s.setPC w).draw = s.draw := rfl
@[simp] theorem State.setPC_key (w : Word) : (s.setPC w).key = s.key := rfl
@[simp] theorem State.setPC_err (w : Word) : (s.setPC w).err = s.err := rfl
@[simp] theorem State.setPC_mem (w : Word) : (s.setPC w).mem = s.mem := rfl
@[simp] theorem State.setPC_draws (w : Word) : (s.setPC w).draws = s.draws := rfl
@[simp] theorem State.readV_setPC (w : Word) (q : Reg) : (s.setPC w).readV q = s.readV q := rfl
@[simp] theorem State.cell_setPC (w : Word) (c : Nat) : (s.setPC w).cell c = s.cell c := rfl
@[simp] theorem State.keyDown_setPC (w : Word) (j : Nat) : (s.setPC w).keyDown j = s.keyDown j := rfl

/-! ## advance -/

@[simp] theorem State.advance_v : (s.advance).v = s.v := rfl
@[simp] theorem State.advance_index : (s.advance).index = s.index := rfl
@[simp] theorem State.advance_pc : (s.advance).pc = s.pc + 2#16 := rfl
@[simp] theorem State.advance_stack : (s.advance).stack = s.stack := rfl
@[simp] theorem State.advance_sp : (s.advance).sp = s.sp := rfl
@[simp] theorem State.advance_dt : (s.advance).dt = s.dt := rfl
@[simp] theorem State.advance_st : (s.advance).st = s.st := rfl
@[simp] theorem State.advance_fb : (s.advance).fb = s.fb := rfl
@[simp] theorem State.advance_draw : (s.advance).draw = s.draw := rfl
@[simp] theorem State.advance_key : (s.advance).key = s.key := rfl
@[simp] theorem State.advance_err : (s.advance).err = s.err := rfl
@[simp] theorem State.advance_mem : (s.advance).mem = s.mem := rfl
@[simp] theorem State.advance_draws : (s.advance).draws = s.draws := rfl
@[simp] theorem State.readV_advance (q : Reg) : (s.advance).readV q = s.readV q := rfl
@[simp] theorem State.cell_advance (c : Nat) : (s.advance).cell c = s.cell c := rfl
@[simp] theorem State.keyDown_advance (j : Nat) : (s.advance).keyDown j = s.keyDown j := rfl

/-! ## stepBack -/

@[simp] theorem State.stepBack_v : (s.stepBack).v = s.v := rfl
@[simp] theorem State.stepBack_index : (s.stepBack).index = s.index := rfl
@[simp] theorem State.stepBack_pc : (s.stepBack).pc = s.pc - 2#16 := rfl
@[simp] theorem State.stepBack_stack : (s.stepBack).stack = s.stack := rfl
@[simp] theorem State.stepBack_sp : (s.stepBack).sp = s.sp := rfl
@[simp] theorem State.stepBack_dt : (s.stepBack).dt = s.dt := rfl
@[simp] theorem State.stepBack_st : (s.stepBack).st = s.st := rfl
@[simp] theorem State.stepBack_fb : (s.stepBack).fb = s.fb := rfl
@[simp] theorem State.stepBack_draw : (s.stepBack).draw = s.draw := rfl
@[simp] theorem State.stepBack_key : (s.stepBack).key = s.key := rfl
@[simp] theorem State.stepBack_err : (s.stepBack).err = s.err := rfl
@[simp] theorem State.stepBack_mem : (s.stepBack).mem = s.mem := rfl
@[simp] theorem State.stepBack_draws : (s.stepBack).draws = s.draws := rfl
@[simp] theorem State.readV_stepBack (q : Reg) : (s.stepBack).readV q = s.readV q := rfl
@[simp] theorem State.cell_stepBack (c : Nat) : (s.stepBack).cell c = s.cell c := rfl
@[simp] theorem State.keyDown_stepBack (j : Nat) : (s.stepBack).keyDown j = s.keyDown j := rfl

/-! ## raise -/

@[simp] theorem State.raise_v (f : Fault) : (s.raise f).v = s.v := rfl
@[simp] theorem State.raise_index (f : Fault) : (s.raise f).index = s.index := rfl
@[simp] theorem State.raise_pc (f : Fault) : (s.raise f).pc = s.pc := rfl
@[simp] theorem State.raise_stack (f : Fault) : (s.raise f).stack = s.stack := rfl
@[simp] theorem State.raise_sp (f : Fault) : (s.raise f).sp = s.sp := rfl
@[simp] theorem State.raise_dt (f : Fault) : (s.raise f).dt = s.dt := rfl
@[simp] theorem State.raise_st (f : Fault) : (s.raise f).st = s.st := rfl
@[simp] theorem State.raise_fb (f : Fault) : (s.raise f).fb = s.fb := rfl
@[simp] theorem State.raise_draw (f : Fault) : (s.raise f).draw = s.draw := rfl
@[simp] theorem State.raise_key (f : Fault) : (s.raise f).key = s.key := rfl
@[simp] theorem State.raise_err (f : Fault) : (s.raise f).err = s.err ||| errBit f := rfl
@[simp] theorem State.raise_mem (f : Fault) : (s.raise f).mem = s.mem := rfl
@[simp] theorem State.raise_draws (f : Fault) : (s.raise f).draws = s.draws := rfl
@[simp] theorem State.readV_raise (f : Fault) (q : Reg) : (s.raise f).readV q = s.readV q := rfl
@[simp] theorem State.cell_raise (f : Fault) (c : Nat) : (s.raise f).cell c = s.cell c := rfl
@[simp] theorem State.keyDown_raise (f : Fault) (j : Nat) : (s.raise f).keyDown j = s.keyDown j := rfl

/-! ## show -/

@[simp] theorem State.show_v (g : Picture) : (s.show g).v = s.v := rfl
@[simp] theorem State.show_index (g : Picture) : (s.show g).index = s.index := rfl
@[simp] theorem State.show_pc (g : Picture) : (s.show g).pc = s.pc := rfl
@[simp] theorem State.show_stack (g : Picture) : (s.show g).stack = s.stack := rfl
@[simp] theorem State.show_sp (g : Picture) : (s.show g).sp = s.sp := rfl
@[simp] theorem State.show_dt (g : Picture) : (s.show g).dt = s.dt := rfl
@[simp] theorem State.show_st (g : Picture) : (s.show g).st = s.st := rfl
@[simp] theorem State.show_fb (g : Picture) : (s.show g).fb = g := rfl
@[simp] theorem State.show_draw (g : Picture) : (s.show g).draw = true := rfl
@[simp] theorem State.show_key (g : Picture) : (s.show g).key = s.key := rfl
@[simp] theorem State.show_err (g : Picture) : (s.show g).err = s.err := rfl
@[simp] theorem State.show_mem (g : Picture) : (s.show g).mem = s.mem := rfl
@[simp] theorem State.show_draws (g : Picture) : (s.show g).draws = s.draws := rfl
@[simp] theorem State.readV_show (g : Picture) (q : Reg) : (s.show g).readV q = s.readV q := rfl
@[simp] theorem State.keyDown_show (g : Picture) (j : Nat) : (s.show g).keyDown j = s.keyDown j := rfl

/-! ## writeAtIndex -/

@[simp] theorem State.writeAtIndex_v (bs : List Byte) : (s.writeAtIndex bs).v = s.v := rfl
@[simp] theorem State.writeAtIndex_index (bs : List Byte) : (s.writeAtIndex bs).index = s.index := rfl
@[simp] theorem State.writeAtIndex_pc (bs : List Byte) : (s.writeAtIndex bs).pc = s.pc := rfl
@[simp] theorem State.writeAtIndex_stack (bs : List Byte) : (s.writeAtIndex bs).stack = s.stack := rfl
@[simp] theorem State.writeAtIndex_sp (bs : List Byte) : (s.writeAtIndex bs).sp = s.sp := rfl
@[simp] theorem State.writeAtIndex_dt (bs : List Byte) : (s.writeAtIndex bs).dt = s.dt := rfl
@[simp] theorem State.writeAtIndex_st (bs : List Byte) : (s.writeAtIndex bs).st = s.st := rfl
@[simp] theorem State.writeAtIndex_fb (bs : List Byte) : (s.writeAtIndex bs).fb = s.fb := rfl
@[simp] theorem State.writeAtIndex_draw (bs : List Byte) : (s.writeAtIndex bs).draw = s.draw := rfl
@[simp] theorem State.writeAtIndex_key (bs : List Byte) : (s.writeAtIndex bs).key = s.key := rfl
@[simp] theorem State.writeAtIndex_err (bs : List Byte) : (s.writeAtIndex bs).err = s.err := rfl
@[simp] theorem State.writeAtIndex_mem (bs : List Byte) : (s.writeAtIndex bs).mem = Memory.writeBytes s.mem s.index.toNat bs := rfl
@[simp] theorem State.writeAtIndex_draws (bs : List Byte) : (s.writeAtIndex bs).draws = s.draws := rfl
@[simp] theorem State.readV_writeAtIndex (bs : List Byte) (q : Reg) : (s.writeAtIndex bs).readV q = s.readV q := rfl
@[simp] theorem State.cell_writeAtIndex (bs : List Byte) (c : Nat) : (s.writeAtIndex bs).cell c = s.cell c := rfl
@[simp] theorem State.keyDown_writeAtIndex (bs : List Byte) (j : Nat) : (s.writeAtIndex bs).keyDown j = s.keyDown j := rfl

/-! ## placeAtPC -/

@[simp] theorem State.placeAtPC_v (bs : List Byte) : (s.placeAtPC bs).v = s.v := rfl
@[simp] theorem State.placeAtPC_index (bs : List Byte) : (s.placeAtPC bs).index = s.index := rfl
@[simp] theorem State.placeAtPC_pc (bs : List Byte) : (s.placeAtPC bs).pc = s.pc := rfl
@[simp] theorem State.placeAtPC_stack (bs : List Byte) : (s.placeAtPC bs).stack = s.stack := rfl
@[simp] theorem State.placeAtPC_sp (bs : List Byte) : (s.placeAtPC bs).sp = s.sp := rfl
@[simp] theorem State.placeAtPC_dt (bs : List Byte) : (s.placeAtPC bs).dt = s.dt := rfl
@[simp] theorem State.placeAtPC_st (bs : List Byte) : (s.placeAtPC bs).st = s.st := rfl
@[simp] theorem State.placeAtPC_fb (bs : List Byte) : (s.placeAtPC bs).fb = s.fb := rfl
@[simp] theorem State.placeAtPC_draw (bs : List Byte) : (s.placeAtPC bs).draw = s.draw := rfl
@[simp] theorem State.placeAtPC_key (bs : List Byte) : (s.placeAtPC bs).key = s.key := rfl
@[simp] theorem State.placeAtPC_err (bs : List Byte) : (s.placeAtPC bs).err = s.err := rfl
@[simp] theorem State.placeAtPC_mem (bs : List Byte) : (s.placeAtPC bs).mem = Memory.writeBytes s.mem s.pc.toNat bs := rfl
@[simp] theorem State.placeAtPC_draws (bs : List Byte) : (s.placeAtPC bs).draws = s.draws := rfl
@[simp] theorem State.readV_placeAtPC (bs : List Byte) (q : Reg) : (s.placeAtPC bs).readV q = s.readV q := rfl
@[simp] theorem State.cell_placeAtPC (bs : List Byte) (c : Nat) : (s.placeAtPC bs).cell c = s.cell c := rfl
@[simp] theorem State.keyDown_placeAtPC (bs : List Byte) (j : Nat) : (s.placeAtPC bs).keyDown j = s.keyDown j := rfl

/-! ## consumeDraw -/

@[simp] theorem State.consumeDraw_v : (s.consumeDraw).v = s.v := rfl
@[simp] theorem State.consumeDraw_index : (s.consumeDraw).index = s.index := rfl
@[simp] theorem State.consumeDraw_pc : (s.consumeDraw).pc = s.pc := rfl
@[simp] theorem State.consumeDraw_stack : (s.consumeDraw).stack = s.stack := rfl
@[simp] theorem State.consumeDraw_sp : (s.consumeDraw).sp = s.sp := rfl
@[simp] theorem State.consumeDraw_dt : (s.consumeDraw).dt = s.dt := rfl
@[simp] theorem State.consumeDraw_st : (s.consumeDraw).st = s.st := rfl
@[simp] theorem State.consumeDraw_fb : (s.consumeDraw).fb = s.fb := rfl
@[simp] theorem State.consumeDraw_draw : (s.consumeDraw).draw = s.draw := rfl
@[simp] theorem State.consumeDraw_key : (s.consumeDraw).key = s.key := rfl
@[simp] theorem State.consumeDraw_err : (s.consumeDraw).err = s.err := rfl
@[simp] theorem State.consumeDraw_mem : (s.consumeDraw).mem = s.mem := rfl
@[simp] theorem State.consumeDraw_draws : (s.consumeDraw).draws = s.draws + 1 := rfl
@[simp] theorem State.readV_consumeDraw (q : Reg) : (s.consumeDraw).readV q = s.readV q := rfl
@[simp] theorem State.cell_consumeDraw (c : Nat) : (s.consumeDraw).cell c = s.cell c := rfl
@[simp] theorem State.keyDown_consumeDraw (j : Nat) : (s.consumeDraw).keyDown j = s.keyDown j := rfl

/-! ## tickTimers -/

@[simp] theorem State.tickTimers_v : (s.tickTimers).v = s.v := rfl
@[simp] theorem State.tickTimers_index : (s.tickTimers).index = s.index := rfl
@[simp] theorem State.tickTimers_pc : (s.tickTimers).pc = s.pc := rfl
@[simp] theorem State.tickTimers_stack : (s.tickTimers).stack = s.stack := rfl
@[simp] theorem State.tickTimers_sp : (s.tickTimers).sp = s.sp := rfl
@[simp] theorem State.tickTimers_dt : (s.tickTimers).dt = countDown s.dt := rfl
@[simp] theorem State.tickTimers_st : (s.tickTimers).st = countDown s.st := rfl
@[simp] theorem State.tickTimers_fb : (s.tickTimers).fb = s.fb := rfl
@[simp] theorem State.tickTimers_draw : (s.tickTimers).draw = s.draw := rfl
@[simp] theorem State.tickTimers_key : (s.tickTimers).key = s.key := rfl
@[simp] theorem State.tickTimers_err : (s.tickTimers).err = s.err := rfl
@[simp] theorem State.tickTimers_mem : (s.tickTimers).mem = s.mem := rfl
@[simp] theorem State.tickTimers_draws : (s.tickTimers).draws = s.draws := rfl
@[simp] theorem State.readV_tickTimers (q : Reg) : (s.tickTimers).readV q = s.readV q := rfl
@[simp] theorem State.cell_tickTimers (c : Nat) : (s.tickTimers).cell c = s.cell c := rfl
@[simp] theorem State.keyDown_tickTimers (j : Nat) : (s.tickTimers).keyDown j = s.keyDown j := rfl

/-! ## clearDrawFlag -/

@[simp] theorem State.clearDrawFlag_v : (s.clearDrawFlag).v = s.v := rfl
@[simp] theorem State.clearDrawFlag_index : (s.clearDrawFlag).index = s.index := rfl
@[simp] theorem State.clearDrawFlag_pc : (s.clearDrawFlag).pc = s.pc := rfl
@[simp] theorem State.clearDrawFlag_stack : (s.clearDrawFlag).stack = s.stack := rfl
@[simp] theorem State.clearDrawFlag_sp : (s.clearDrawFlag).sp = s.sp := rfl
@[simp] theorem State.clearDrawFlag_dt : (s.clearDrawFlag).dt = s.dt := rfl
@[simp] theorem State.clearDrawFlag_st : (s.clearDrawFlag).st = s.st := rfl
@[simp] theorem State.clearDrawFlag_fb : (s.clearDrawFlag).fb = s.fb := rfl
@[simp] theorem State.clearDrawFlag_draw : (s.clearDrawFlag).draw = false := rfl
@[simp] theorem State.clearDrawFlag_key : (s.clearDrawFlag).key = s.key := rfl
@[simp] theorem State.clearDrawFlag_err : (s.clearDrawFlag).err = s.err := rfl
@[simp] theorem State.clearDrawFlag_mem : (s.clearDrawFlag).mem = s.mem := rfl
@[simp] theorem State.clearDrawFlag_draws : (s.clearDrawFlag).draws = s.draws := rfl
@[simp] theorem State.readV_clearDrawFlag (q : Reg) : (s.clearDrawFlag).readV q = s.readV q := rfl
@[simp] theorem State.cell_clearDrawFlag (c : Nat) : (s.clearDrawFlag).cell c = s.cell c := rfl
@[simp] theorem State.keyDown_clearDrawFlag (j : Nat) : (s.clearDrawFlag).keyDown j = s.keyDown j := rfl

/-! ## setKey -/

@[simp] theorem State.setKey_v (k : Fin 16) (p : Bool) : (s.setKey k p).v = s.v := rfl
@[simp] theorem State.setKey_index (k : Fin 16) (p : Bool) : (s.setKey k p).index = s.index := rfl
@[simp] theorem State.setKey_pc (k : Fin 16) (p : Bool) : (s.setKey k p).pc = s.pc := rfl
@[simp] theorem State.setKey_stack (k : Fin 16) (p : Bool) : (s.setKey k p).stack = s.stack := rfl
@[simp] theorem State.setKey_sp (k : Fin 16) (p : Bool) : (s.setKey k p).sp = s.sp := rfl
@[simp] theorem State.setKey_dt (k : Fin 16) (p : Bool) : (s.setKey k p).dt = s.dt := rfl
@[simp] theorem State.setKey_st (k : Fin 16) (p : Bool) : (s.setKey k p).st = s.st := rfl
@[simp] theorem State.setKey_fb (k : Fin 16) (p : Bool) : (s.setKey k p).fb = s.fb := rfl
@[simp] theorem State.setKey_draw (k : Fin 16) (p : Bool) : (s.setKey k p).draw = s.draw := rfl
@[simp] theorem State.setKey_key (k : Fin 16) (p : Bool) : (s.setKey k p).key = if p then s.key ||| (1#16 <<< k.val) else s.key &&& ~~~(1#16 <<< k.val) := rfl
@[simp] theorem State.setKey_err (k : Fin 16) (p : Bool) : (s.setKey k p).err = s.err := rfl
@[simp] theorem State.setKey_mem (k : Fin 16) (p : Bool) : (s.setKey k p).mem = s.mem := rfl
@[simp] theorem State.setKey_draws (k : Fin 16) (p : Bool) : (s.setKey k p).draws = s.draws := rfl
@[simp] theorem State.readV_setKey (k : Fin 16) (p : Bool) (q : Reg) : (s.setKey k p).readV q = s.readV q := rfl
@[simp] theorem State.cell_setKey (k : Fin 16) (p : Bool) (c : Nat) : (s.setKey k p).cell c = s.cell c := rfl

/-! ## resetCall -/

@[simp] theorem State.resetCall_v : (s.resetCall).v = State.reset.v := rfl
@[simp] theorem State.resetCall_index : (s.resetCall).index = State.reset.index := rfl
@[simp] theorem State.resetCall_pc : (s.resetCall).pc = State.reset.pc := rfl
@[simp] theorem State.resetCall_stack : (s.resetCall).stack = State.reset.stack := rfl
@[simp] theorem State.resetCall_sp : (s.resetCall).sp = State.reset.sp := rfl
@[simp] theorem State.resetCall_dt : (s.resetCall).dt = State.reset.dt := rfl
@[simp] theorem State.resetCall_st : (s.resetCall).st = State.reset.st := rfl
@[simp] theorem State.resetCall_fb : (s.resetCall).fb = State.reset.fb := rfl
@[simp] theorem State.resetCall_draw : (s.resetCall).draw = State.reset.draw := rfl
@[simp] theorem State.resetCall_key : (s.resetCall).key = State.reset.key := rfl
@[simp] theorem State.resetCall_err : (s.resetCall).err = State.reset.err := rfl
@[simp] theorem State.resetCall_mem : (s.resetCall).mem = Memory.clearAboveFont s.mem := rfl
@[simp] theorem State.resetCall_draws : (s.resetCall).draws = s.draws := rfl

/-! ## loadImage -/

@[simp] theorem State.loadImage_v (bs : List Byte) : (s.loadImage bs).v = s.v := rfl
@[simp] theorem State.loadImage_index (bs : List Byte) : (s.loadImage bs).index = s.index := rfl
@[simp] theorem State.loadImage_pc (bs : List Byte) : (s.loadImage bs).pc = s.pc := rfl
@[simp] theorem State.loadImage_stack (bs : List Byte) : (s.loadImage bs).stack = s.stack := rfl
@[simp] theorem State.loadImage_sp (bs : List Byte) : (s.loadImage bs).sp = s.sp := rfl
@[simp] theorem State.loadImage_dt (bs : List Byte) : (s.loadImage bs).dt = s.dt := rfl
@[simp] theorem State.loadImage_st (bs : List Byte) : (s.loadImage bs).st = s.st := rfl
@[simp] theorem State.loadImage_fb (bs : List Byte) : (s.loadImage bs).fb = s.fb := rfl
@[simp] theorem State.loadImage_draw (bs : List Byte) : (s.loadImage bs).draw = s.draw := rfl
@[simp] theorem State.loadImage_key (bs : List Byte) : (s.loadImage bs).key = s.key := rfl
@[simp] theorem State.loadImage_err (bs : List Byte) : (s.loadImage bs).err = s.err := rfl
@[simp] theorem State.loadImage_mem (bs : List Byte) : (s.loadImage bs).mem = Memory.writeBytes s.mem Config.progBase bs := rfl
@[simp] theorem State.loadImage_draws (bs : List Byte) : (s.loadImage bs).draws = s.draws := rfl
@[simp] theorem State.readV_loadImage (bs : List Byte) (q : Reg) : (s.loadImage bs).readV q = s.readV q := rfl
@[simp] theorem State.cell_loadImage (bs : List Byte) (c : Nat) : (s.loadImage bs).cell c = s.cell c := rfl
@[simp] theorem State.keyDown_loadImage (bs : List Byte) (j : Nat) : (s.loadImage bs).keyDown j = s.keyDown j := rfl

@[simp] theorem State.cell_show (g : Picture) (c : Nat) : (s.show g).cell c = pictureCell g c := rfl

/-! ## skipIf -/

@[simp] theorem State.skipIf_v (c : Bool) : (s.skipIf c).v = s.v := by cases c <;> rfl
@[simp] theorem State.skipIf_index (c : Bool) : (s.skipIf c).index = s.index := by cases c <;> rfl
@[simp] theorem State.skipIf_pc (c : Bool) : (s.skipIf c).pc = if c then s.pc + 2#16 else s.pc := by
  cases c <;> rfl
@[simp] theorem State.skipIf_stack (c : Bool) : (s.skipIf c).stack = s.stack := by cases c <;> rfl
@[simp] theorem State.skipIf_sp (c : Bool) : (s.skipIf c).sp = s.sp := by cases c <;> rfl
@[simp] theorem State.skipIf_dt (c : Bool) : (s.skipIf c).dt = s.dt := by cases c <;> rfl
@[simp] theorem State.skipIf_st (c : Bool) : (s.skipIf c).st = s.st := by cases c <;> rfl
@[simp] theorem State.skipIf_fb (c : Bool) : (s.skipIf c).fb = s.fb := by cases c <;> rfl
@[simp] theorem State.skipIf_draw (c : Bool) : (s.skipIf c).draw = s.draw := by cases c <;> rfl
@[simp] theorem State.skipIf_key (c : Bool) : (s.skipIf c).key = s.key := by cases c <;> rfl
@[simp] theorem State.skipIf_err (c : Bool) : (s.skipIf c).err = s.err := by cases c <;> rfl
@[simp] theorem State.skipIf_mem (c : Bool) : (s.skipIf c).mem = s.mem := by cases c <;> rfl
@[simp] theorem State.skipIf_draws (c : Bool) : (s.skipIf c).draws = s.draws := by cases c <;> rfl

/-! ## Reading a register -/

/-- Registers are read from the register file alone. -/
theorem State.readV_congr {s t : State} (h : s.v = t.v) (r : Reg) : s.readV r = t.readV r := by
  simp only [State.readV, h]

@[simp] theorem State.readV_writeV (r q : Reg) (b : Byte) :
    (s.writeV r b).readV q = if q = r then b else s.readV q := by
  simp only [State.readV, State.writeV, Fin.getElem_fin, Vector.getElem_set, Fin.ext_iff, eq_comm]

/-- The flag is the last write: with `x = 15` it is what `VF` holds (42_alu.md R120). -/
@[simp] theorem State.readV_writeWithFlag (x q : Reg) (b f : Byte) :
    (s.writeWithFlag x b f).readV q = if q = regVF then f else if q = x then b else s.readV q := by
  simp only [State.writeWithFlag, State.readV_writeV]

@[simp] theorem State.readV_skipIf (c : Bool) (q : Reg) : (s.skipIf c).readV q = s.readV q := by cases c <;> rfl
@[simp] theorem State.cell_skipIf (b : Bool) (c : Nat) : (s.skipIf b).cell c = s.cell c := by cases b <;> rfl
@[simp] theorem State.keyDown_skipIf (c : Bool) (j : Nat) : (s.skipIf c).keyDown j = s.keyDown j := by cases c <;> rfl

end Sys2Proof.Machine
end

