-- ==== Sys2Proof/Laws/Ops.lean ====
section
/-! SUPPORT. For each shared operation, everything it can do, said once. -/

namespace Sys2Proof.Machine

/-! ## Call stack and faults (10_state.md R15, 60_exceptions.md R171) -/

/-- A push either stores the word in slot `SP`, counts up and goes on, or records the overflow. -/
theorem State.pushThen_full (s : State) (w : Word) (k : State → State) (h : s.sp.val = 16) :
    s.pushThen w k = s.raise .stackOverflow := by
  simp [State.pushThen, h]

theorem State.pushThen_room (s : State) (w : Word) (k : State → State) (h : s.sp.val < 16) :
    s.pushThen w k = k { s with stack := s.stack.set s.sp.val w, sp := ⟨s.sp.val + 1, by omega⟩ } := by
  simp [State.pushThen, h]

/-- A pop either counts down and hands on the slot it reaches, or records the underflow. -/
theorem State.popThen_empty (s : State) (k : Word → State → State) (h : s.sp.val = 0) :
    s.popThen k = s.raise .stackUnderflow := by
  simp [State.popThen, h]

theorem State.popThen_live (s : State) (k : Word → State → State) (h : 0 < s.sp.val) :
    s.popThen k = k (s.stack[s.sp.val - 1]'(by omega)) { s with sp := ⟨s.sp.val - 1, by omega⟩ } := by
  simp [State.popThen, h]

/-- Everything `pushThen` can do. -/
theorem State.pushThen_cases (s : State) (w : Word) (k : State → State) :
    (s.sp.val = 16 ∧ s.pushThen w k = s.raise .stackOverflow) ∨
    ∃ h : s.sp.val < 16,
      s.pushThen w k = k { s with stack := s.stack.set s.sp.val w, sp := ⟨s.sp.val + 1, by omega⟩ } := by
  rcases Nat.lt_or_ge s.sp.val 16 with h | h
  · exact .inr ⟨h, s.pushThen_room w k h⟩
  · have : s.sp.val = 16 := by omega
    exact .inl ⟨this, s.pushThen_full w k this⟩

/-- Everything `popThen` can do. -/
theorem State.popThen_cases (s : State) (k : Word → State → State) :
    (s.sp.val = 0 ∧ s.popThen k = s.raise .stackUnderflow) ∨
    ∃ h : 0 < s.sp.val,
      s.popThen k = k (s.stack[s.sp.val - 1]'(by omega)) { s with sp := ⟨s.sp.val - 1, by omega⟩ } := by
  rcases Nat.eq_zero_or_pos s.sp.val with h | h
  · exact .inl ⟨h, s.popThen_empty k h⟩
  · exact .inr ⟨h, s.popThen_live k h⟩

/-- Raising a fault sets its own bit of `ERR` and keeps the other. -/
theorem State.raise_err_bit (s : State) (f : Fault) (b : Nat) :
    (s.raise f).err.getLsbD b = (s.err.getLsbD b || (errBit f).getLsbD b) := by
  simp

/-! ## Keys of the host -/

/-- `set_key` stores the level of one key and leaves the others (60_exceptions.md R182). -/
theorem State.keyDown_setKey (s : State) (k : Fin 16) (p : Bool) (j : Nat) :
    (s.setKey k p).keyDown j = if j = k.val then p else s.keyDown j := by
  have hbit : ∀ i, (1#16 <<< k.val).getLsbD i = decide (i = k.val) := by
    intro i
    have := k.isLt
    simp only [BitVec.getLsbD_shiftLeft, BitVec.getLsbD_one]
    by_cases h : i = k.val
    · subst h; simp
    · by_cases h2 : i < k.val
      · simp [h2, h]
      · simp [h, h2, show ¬ i - k.val = 0 by omega]
  have hout : ¬ j < 16 → s.key.getLsbD j = false := fun h => BitVec.getLsbD_of_ge _ _ (by omega)
  cases p with
  | true =>
    simp only [State.keyDown, State.setKey, if_true, BitVec.getLsbD_or, hbit]
    by_cases h : j = k.val <;> simp [h]
  | false =>
    simp only [State.keyDown, State.setKey, Bool.false_eq_true, if_false, BitVec.getLsbD_and, BitVec.getLsbD_not, hbit]
    by_cases h : j = k.val
    · simp [h]
    · by_cases h16 : j < 16
      · simp only [h, h16, decide_false, decide_true, Bool.not_false, Bool.and_true, if_false]
      · simp only [hout h16, Bool.false_and, h, if_false]

/-! ## Skips -/

theorem State.skipIf_true (s : State) : s.skipIf true = s.advance := rfl
theorem State.skipIf_false (s : State) : s.skipIf false = s := rfl

/-! ## Keys -/

/-- Every key a scan can find is one of the sixteen. -/
theorem State.firstKey_lt {s : State} {k : Nat} (h : s.firstKey = some k) : k < 16 := by
  have := List.mem_of_find?_eq_some h
  simpa using this

/-- The scan finds the least pressed key (45_keypad_timers.md R162). -/
theorem State.firstKey_some {s : State} {k : Nat} (h : s.firstKey = some k) :
    s.keyDown k = true ∧ ∀ j, j < k → s.keyDown j = false := by
  refine ⟨List.find?_some h, fun j hj => ?_⟩
  unfold State.firstKey at h
  rw [List.find?_range_eq_some] at h
  simpa using h.2.2 j hj

/-- The scan finds nothing exactly when no key is down. -/
theorem State.firstKey_none_iff (s : State) : s.firstKey = none ↔ s.key = 0#16 := by
  constructor
  · intro h
    apply BitVec.eq_of_getLsbD_eq
    intro i hi
    have := List.find?_eq_none.1 h i (by simpa using hi)
    simpa [State.keyDown] using this
  · intro h
    simp [State.firstKey, State.keyDown, h]

/-! ## Loads and stores at `I` (20_memory.md R43) -/

/-- What `Fx65` leaves in a register (43_index_memory.md R145). -/
theorem State.readV_loadedRegs (s : State) (x r : Reg) :
    State.readV { s with v := s.loadedRegs x } r = if r ≤ x then s.readAtIndex r.val else s.readV r := by
  simp [State.readV, State.loadedRegs]

theorem State.regsUpTo_length (s : State) (x : Reg) : (s.regsUpTo x).length = x.val + 1 := by
  simp [State.regsUpTo]

/-- Element `k` of the registers stored is `V[k]` (43_index_memory.md R144). -/
theorem State.regsUpTo_get (s : State) (x : Reg) (k : Nat) (h : k < (s.regsUpTo x).length) :
    (s.regsUpTo x)[k] = s.readV ⟨k, by rw [State.regsUpTo_length] at h; omega⟩ := by
  simp [State.regsUpTo, State.readV]

/-- A store at `I` of at most 4096 bytes is read back. -/
theorem State.read_writeAtIndex_same (s : State) (bs : List Byte) (k : Nat) (hlen : bs.length ≤ Config.memSize)
    (hk : k < bs.length) : Memory.read (s.writeAtIndex bs).mem (s.index.toNat + k) = bs[k] :=
  Memory.read_writeBytes_same bs s.mem s.index.toNat k hlen hk

/-- A store at `I` leaves every other byte alone. -/
theorem State.read_writeAtIndex_other (s : State) (bs : List Byte) (c : Nat)
    (h : ∀ k, k < bs.length → Memory.wrap c ≠ Memory.wrap (s.index.toNat + k)) :
    Memory.read (s.writeAtIndex bs).mem c = Memory.read s.mem c :=
  Memory.read_writeBytes_other bs s.mem s.index.toNat c h

/-! ## Operands -/

theorem lowNibble_eq (b : Byte) : lowNibble b = b.toNat % 16 := by
  have := Nat.and_two_pow_sub_one_eq_mod b.toNat 4
  simpa [lowNibble] using this

theorem lowNibble_lt (b : Byte) : lowNibble b < 16 := by rw [lowNibble_eq]; omega

@[simp] theorem target12_toNat (nnn : Imm12) : (target12 nnn).toNat = nnn.toNat := by
  have := nnn.isLt
  simp [target12]; omega

@[simp] theorem zext16_toNat (b : Byte) : (zext16 b).toNat = b.toNat := by
  have := b.isLt
  simp [zext16]; omega

@[simp] theorem glyphAddress_toNat (b : Byte) : (glyphAddress b).toNat = 5 * (b.toNat % 16) := by
  simp only [glyphAddress, lowNibble_eq, BitVec.toNat_ofNat]; omega

end Sys2Proof.Machine
end

