-- ==== Sys2Proof/Laws/PerInstr.lean ====
section
/-! SUPPORT. Statements made per instruction: every instruction's word is in its own row of the opcode table
(30_encoding.md R64, R65). -/

namespace Sys2Proof.Laws.EncodeRow

/-- The word of `i` matches the row of R64 that `i` belongs to. -/
def Statement (i : Instr) : Prop := rowMatches (opcodeRow i) (encode i) = true

theorem cls : Statement (.cls) := by
  rw [Statement]; decide

theorem ret : Statement (.ret) := by
  rw [Statement]; decide

theorem jp (nnn : Imm12) : Statement (.jp nnn) := by
  simp only [Statement, rowMatches_iff, opcodeRow, encode, mask_op]
  simp only [fieldOp_encodeNNN]
  rfl

theorem call (nnn : Imm12) : Statement (.call nnn) := by
  simp only [Statement, rowMatches_iff, opcodeRow, encode, mask_op]
  simp only [fieldOp_encodeNNN]
  rfl

theorem seImm (x : Reg) (kk : Byte) : Statement (.seImm x kk) := by
  simp only [Statement, rowMatches_iff, opcodeRow, encode, mask_op]
  simp only [fieldOp_encodeXKK]
  rfl

theorem sneImm (x : Reg) (kk : Byte) : Statement (.sneImm x kk) := by
  simp only [Statement, rowMatches_iff, opcodeRow, encode, mask_op]
  simp only [fieldOp_encodeXKK]
  rfl

theorem seReg (x : Reg) (y : Reg) (n : Nibble) : Statement (.seReg x y n) := by
  simp only [Statement, rowMatches_iff, opcodeRow, encode, mask_op]
  simp only [fieldOp_encodeXYN]
  rfl

theorem ldImm (x : Reg) (kk : Byte) : Statement (.ldImm x kk) := by
  simp only [Statement, rowMatches_iff, opcodeRow, encode, mask_op]
  simp only [fieldOp_encodeXKK]
  rfl

theorem addImm (x : Reg) (kk : Byte) : Statement (.addImm x kk) := by
  simp only [Statement, rowMatches_iff, opcodeRow, encode, mask_op]
  simp only [fieldOp_encodeXKK]
  rfl

theorem ldReg (x : Reg) (y : Reg) : Statement (.ldReg x y) := by
  simp only [Statement, rowMatches_iff, opcodeRow, encode, mask_op_n, fieldOp_encodeXYN, fieldN_encodeXYN]
  rfl

theorem orReg (x : Reg) (y : Reg) : Statement (.orReg x y) := by
  simp only [Statement, rowMatches_iff, opcodeRow, encode, mask_op_n, fieldOp_encodeXYN, fieldN_encodeXYN]
  rfl

theorem andReg (x : Reg) (y : Reg) : Statement (.andReg x y) := by
  simp only [Statement, rowMatches_iff, opcodeRow, encode, mask_op_n, fieldOp_encodeXYN, fieldN_encodeXYN]
  rfl

theorem xorReg (x : Reg) (y : Reg) : Statement (.xorReg x y) := by
  simp only [Statement, rowMatches_iff, opcodeRow, encode, mask_op_n, fieldOp_encodeXYN, fieldN_encodeXYN]
  rfl

theorem addReg (x : Reg) (y : Reg) : Statement (.addReg x y) := by
  simp only [Statement, rowMatches_iff, opcodeRow, encode, mask_op_n, fieldOp_encodeXYN, fieldN_encodeXYN]
  rfl

theorem subReg (x : Reg) (y : Reg) : Statement (.subReg x y) := by
  simp only [Statement, rowMatches_iff, opcodeRow, encode, mask_op_n, fieldOp_encodeXYN, fieldN_encodeXYN]
  rfl

theorem shr (x : Reg) (y : Reg) : Statement (.shr x y) := by
  simp only [Statement, rowMatches_iff, opcodeRow, encode, mask_op_n, fieldOp_encodeXYN, fieldN_encodeXYN]
  rfl

theorem subnReg (x : Reg) (y : Reg) : Statement (.subnReg x y) := by
  simp only [Statement, rowMatches_iff, opcodeRow, encode, mask_op_n, fieldOp_encodeXYN, fieldN_encodeXYN]
  rfl

theorem shl (x : Reg) (y : Reg) : Statement (.shl x y) := by
  simp only [Statement, rowMatches_iff, opcodeRow, encode, mask_op_n, fieldOp_encodeXYN, fieldN_encodeXYN]
  rfl

theorem sneReg (x : Reg) (y : Reg) (n : Nibble) : Statement (.sneReg x y n) := by
  simp only [Statement, rowMatches_iff, opcodeRow, encode, mask_op]
  simp only [fieldOp_encodeXYN]
  rfl

theorem ldI (nnn : Imm12) : Statement (.ldI nnn) := by
  simp only [Statement, rowMatches_iff, opcodeRow, encode, mask_op]
  simp only [fieldOp_encodeNNN]
  rfl

theorem jpV0 (nnn : Imm12) : Statement (.jpV0 nnn) := by
  simp only [Statement, rowMatches_iff, opcodeRow, encode, mask_op]
  simp only [fieldOp_encodeNNN]
  rfl

theorem rnd (x : Reg) (kk : Byte) : Statement (.rnd x kk) := by
  simp only [Statement, rowMatches_iff, opcodeRow, encode, mask_op]
  simp only [fieldOp_encodeXKK]
  rfl

theorem drw (x : Reg) (y : Reg) (n : Nibble) : Statement (.drw x y n) := by
  simp only [Statement, rowMatches_iff, opcodeRow, encode, mask_op]
  simp only [fieldOp_encodeXYN]
  rfl

theorem skp (x : Reg) : Statement (.skp x) := by
  simp only [Statement, rowMatches_iff, opcodeRow, encode, mask_op_kk, fieldOp_encodeXKK, fieldKK_encodeXKK]
  rfl

theorem sknp (x : Reg) : Statement (.sknp x) := by
  simp only [Statement, rowMatches_iff, opcodeRow, encode, mask_op_kk, fieldOp_encodeXKK, fieldKK_encodeXKK]
  rfl

theorem ldVxDT (x : Reg) : Statement (.ldVxDT x) := by
  simp only [Statement, rowMatches_iff, opcodeRow, encode, mask_op_kk, fieldOp_encodeXKK, fieldKK_encodeXKK]
  rfl

theorem ldVxK (x : Reg) : Statement (.ldVxK x) := by
  simp only [Statement, rowMatches_iff, opcodeRow, encode, mask_op_kk, fieldOp_encodeXKK, fieldKK_encodeXKK]
  rfl

theorem ldDTVx (x : Reg) : Statement (.ldDTVx x) := by
  simp only [Statement, rowMatches_iff, opcodeRow, encode, mask_op_kk, fieldOp_encodeXKK, fieldKK_encodeXKK]
  rfl

theorem ldSTVx (x : Reg) : Statement (.ldSTVx x) := by
  simp only [Statement, rowMatches_iff, opcodeRow, encode, mask_op_kk, fieldOp_encodeXKK, fieldKK_encodeXKK]
  rfl

theorem addIVx (x : Reg) : Statement (.addIVx x) := by
  simp only [Statement, rowMatches_iff, opcodeRow, encode, mask_op_kk, fieldOp_encodeXKK, fieldKK_encodeXKK]
  rfl

theorem ldFVx (x : Reg) : Statement (.ldFVx x) := by
  simp only [Statement, rowMatches_iff, opcodeRow, encode, mask_op_kk, fieldOp_encodeXKK, fieldKK_encodeXKK]
  rfl

theorem ldBVx (x : Reg) : Statement (.ldBVx x) := by
  simp only [Statement, rowMatches_iff, opcodeRow, encode, mask_op_kk, fieldOp_encodeXKK, fieldKK_encodeXKK]
  rfl

theorem ldMemVx (x : Reg) : Statement (.ldMemVx x) := by
  simp only [Statement, rowMatches_iff, opcodeRow, encode, mask_op_kk, fieldOp_encodeXKK, fieldKK_encodeXKK]
  rfl

theorem ldVxMem (x : Reg) : Statement (.ldVxMem x) := by
  simp only [Statement, rowMatches_iff, opcodeRow, encode, mask_op_kk, fieldOp_encodeXKK, fieldKK_encodeXKK]
  rfl

theorem nopU (w : Word) : Statement (.nopU w) := by simp [Statement, rowMatches_iff, opcodeRow, encode]

end Sys2Proof.Laws.EncodeRow
end

