-- ==== Sys2Proof/Tests/Slice0.lean ====
section
/-! SUPPORT. Tests.  Expected values come from the spec: the vectors of 95_test_vectors.md, by their ids, or the
examples of the rules named.  At the end stands one witness for each statement of Certificates/Slice0/Obligations.lean
that has hypotheses. -/

namespace Sys2Proof.Tests

open Sys2Proof Sys2Proof.Machine

/-! ## Building small states -/

/-- A state with some registers written. -/
def withRegs (s : State) (rs : List (Reg × Byte)) : State := rs.foldl (fun t r => t.writeV r.1 r.2) s

/-- A state with bytes written to memory from an address on. -/
def withBytes (s : State) (a : Nat) (bs : List Byte) : State := { s with mem := Memory.writeBytes s.mem a bs }

/-- The vectors' start state with some registers written. -/
def regs (rs : List (Reg × Byte)) : State := withRegs State.reset rs

/-- The state in an outcome. -/
def got : Host.Outcome State Fault Refusal → Option State
  | .next t => some t
  | .fault _ => none
  | .refused _ => none

/-- What one step makes of a state with the word `iw` at its `PC`. -/
def after (iw : Nat) (s : State) : Option State := got (step (s.withFetchWord 16 iw))

/-- What one transaction of the host makes of a state, with the host's answer. -/
def hostDoes (t : Transaction) (s : State) : Option (State × Response) :=
  match transact t s with
  | .next u => some u
  | .fault _ => none
  | .refused _ => none

/-! ## Well-formedness -/

/-- A `nopU` of a recognised word is refused, one word for each set of R67. -/
theorem test_illformed_nop :
    (Instr.nopU 0x00E0#16).wellFormed = false ∧ (Instr.nopU 0x00EE#16).wellFormed = false ∧
    (Instr.nopU 0x8124#16).wellFormed = false ∧ (Instr.nopU 0x812E#16).wellFormed = false ∧
    (Instr.nopU 0xE19E#16).wellFormed = false ∧ (Instr.nopU 0xF165#16).wellFormed = false ∧
    (Instr.nopU 0x1234#16).wellFormed = false ∧ (Instr.nopU 0xD120#16).wellFormed = false := by decide

/-- V-ENC-5 to V-ENC-8: words of the four sets. -/
theorem test_wellformed_nop :
    ([0x0000#16, 0x00E1#16, 0x00FE#16, 0x0123#16, 0x0FFF#16, 0x8128#16, 0x812D#16, 0x812F#16, 0xE100#16, 0xE19F#16,
      0xE1A0#16, 0xE1FF#16, 0xF100#16, 0xF175#16, 0xF1FF#16, 0xF090#16].all fun w =>
        (Instr.nopU w).wellFormed && decode w == .nopU w) = true := by decide

/-! ## Decoding: a word written out from R64 for every constructor -/

theorem test_decode_flow :
    decode 0x00EE#16 = .ret ∧ decode 0x1ABC#16 = .jp 0xABC#12 ∧ decode 0x2ABC#16 = .call 0xABC#12 ∧
    decode 0xBABC#16 = .jpV0 0xABC#12 := by decide

theorem test_decode_skip :
    decode 0x3A5C#16 = .seImm 10 0x5C#8 ∧ decode 0x4A5C#16 = .sneImm 10 0x5C#8 ∧
    decode 0x5A37#16 = .seReg 10 3 0x7#4 ∧ decode 0x9A37#16 = .sneReg 10 3 0x7#4 := by decide

theorem test_decode_alu :
    decode 0x6A5C#16 = .ldImm 10 0x5C#8 ∧ decode 0x7A5C#16 = .addImm 10 0x5C#8 ∧
    decode 0x8A30#16 = .ldReg 10 3 ∧ decode 0x8A31#16 = .orReg 10 3 ∧ decode 0x8A32#16 = .andReg 10 3 ∧
    decode 0x8A33#16 = .xorReg 10 3 ∧ decode 0x8A34#16 = .addReg 10 3 ∧ decode 0x8A35#16 = .subReg 10 3 ∧
    decode 0x8A36#16 = .shr 10 3 ∧ decode 0x8A37#16 = .subnReg 10 3 ∧ decode 0x8A3E#16 = .shl 10 3 ∧
    decode 0xCA5C#16 = .rnd 10 0x5C#8 := by decide

theorem test_decode_memory :
    decode 0xAABC#16 = .ldI 0xABC#12 ∧ decode 0xFA1E#16 = .addIVx 10 ∧ decode 0xFA29#16 = .ldFVx 10 ∧
    decode 0xFA33#16 = .ldBVx 10 ∧ decode 0xFA55#16 = .ldMemVx 10 ∧ decode 0xFA65#16 = .ldVxMem 10 := by decide

theorem test_decode_display : decode 0x00E0#16 = .cls ∧ decode 0xDA35#16 = .drw 10 3 0x5#4 := by decide

theorem test_decode_keypad_timers :
    decode 0xEA9E#16 = .skp 10 ∧ decode 0xEAA1#16 = .sknp 10 ∧ decode 0xFA07#16 = .ldVxDT 10 ∧
    decode 0xFA0A#16 = .ldVxK 10 ∧ decode 0xFA15#16 = .ldDTVx 10 ∧ decode 0xFA18#16 = .ldSTVx 10 := by decide

/-- One word of each family, bit by bit from R60 and R64: `8xy4` with x = 1010, y = 1011; `Bnnn`; `4xkk`; `Fx55`;
`Dxyn`; `ExA1`. -/
theorem test_decode_bits :
    decode 0b1000_1010_1011_0100#16 = .addReg 10 11 ∧ decode 0b1011_0000_0000_0101#16 = .jpV0 0b000000000101#12 ∧
    decode 0b0100_0001_1000_0000#16 = .sneImm 1 0b10000000#8 ∧ decode 0b1111_0110_0101_0101#16 = .ldMemVx 6 ∧
    decode 0b1101_0001_0010_0101#16 = .drw 1 2 0b0101#4 ∧ decode 0b1110_0111_1010_0001#16 = .sknp 7 ∧
    decode 0b1000_0001_0010_1000#16 = .nopU 0b1000_0001_0010_1000#16 := by decide

/-- V-ENC-12: the first byte is the high one; one byte alone is refused by name. -/
theorem test_decode_bytes :
    decodeBytes [0x12#8, 0x34#8, 0xFF#8] = .ok (.jp 0x234#12, [0xFF#8]) ∧
    (match decodeBytes [0x12#8] with | .error e => e = .truncated | .ok _ => False) ∧
    decodeTableWord 16 0x1234 = some (.jp 0x234#12) := by
  exact ⟨rfl, rfl, rfl⟩

/-! ## Control transfer -/

/-- V-FLOW-1, V-FLOW-3. -/
theorem test_jp :
    (after 0x1204 State.reset).map State.pc = some 0x204#16 ∧
    (after 0x1201 State.reset).map State.pc = some 0x201#16 := by decide

/-- V-FLOW-6, and V-FLOW-12: the pushed `npc` wraps. -/
theorem test_call :
    (after 0x2300 { State.reset with sp := 15 }).map (fun t => (t.stack[15], t.sp.val, t.pc)) =
      some (0x202#16, 16, 0x300#16) ∧
    (after 0x2300 { State.reset with pc := 0xFFFE#16 }).map (fun t => (t.stack[0], t.sp.val, t.pc)) =
      some (0#16, 1, 0x300#16) := by decide

/-- V-FLOW-7. -/
theorem test_call_overflow :
    after 0x2300 { State.reset with sp := 16 } =
      some { (State.reset.withFetchWord 16 0x2300) with sp := 16, err := 0b01#2, pc := 0x202#16 } := by decide

/-- V-FLOW-13: the whole popped value. -/
theorem test_ret :
    (after 0x00EE { State.reset with sp := 1, stack := State.reset.stack.set 0 0x1234#16 }).map
      (fun t => (t.sp.val, t.pc, t.stack[0])) = some (0, 0x1234#16, 0x1234#16) := by decide

/-- V-FLOW-9: the underflow adds to a sticky record. -/
theorem test_ret_underflow :
    after 0x00EE { State.reset with err := 0b01#2 } =
      some { (State.reset.withFetchWord 16 0x00EE) with err := 0b11#2, pc := 0x202#16 } := by decide

/-- V-FLOW-10, V-FLOW-11. -/
theorem test_jpV0 :
    (after 0xB300 (regs [(0, 0x04#8)])).map State.pc = some 0x304#16 ∧
    (after 0xBFFF (regs [(0, 0xFF#8)])).map State.pc = some 0x10FE#16 := by decide

/-! ## Skips -/

/-- V-SKIP-2, V-SKIP-10 (wrap at 16 bits). -/
theorem test_seImm :
    (after 0x3100 (regs [(1, 3#8)])).map State.pc = some 0x202#16 ∧
    (after 0x3000 { State.reset with pc := 0xFFFE#16 }).map State.pc = some 2#16 := by decide

/-- V-SKIP-3, V-SKIP-4. -/
theorem test_sneImm :
    (after 0x4A07 (regs [(10, 7#8)])).map State.pc = some 0x202#16 ∧
    (after 0x4A07 (regs [(10, 8#8)])).map State.pc = some 0x204#16 := by decide

/-- V-SKIP-6, V-ENC-9 (`n` ignored). -/
theorem test_seReg :
    (after 0x5120 (regs [(1, 1#8), (2, 2#8)])).map State.pc = some 0x202#16 ∧
    (after 0x5121 (regs [(1, 4#8), (2, 4#8)])).map State.pc = some 0x204#16 := by decide

/-- V-SKIP-8, V-SKIP-9. -/
theorem test_sneReg :
    (after 0x9120 (regs [(1, 1#8), (2, 2#8)])).map State.pc = some 0x204#16 ∧
    (after 0x9330 (regs [(3, 9#8)])).map State.pc = some 0x202#16 := by decide

/-! ## Registers and the ALU -/

/-- V-ALU-1. -/
theorem test_ldImm : (after 0x6A2F State.reset).map (fun t => (t.readV 10, t.pc)) = some (0x2F#8, 0x202#16) := by decide

/-- V-ALU-4. -/
theorem test_addImm : (after 0x7102 (regs [(1, 0xFF#8)])).map (fun t => (t.readV 1, t.readV 15)) = some (1#8, 0#8) := by
  decide

/-- V-ALU-5. -/
theorem test_ldReg : (after 0x8120 (regs [(2, 0x77#8)])).map (fun t => (t.readV 1, t.readV 2)) = some (0x77#8, 0x77#8) := by
  decide

/-- V-ALU-6. -/
theorem test_orReg :
    (after 0x8121 (regs [(1, 0xF0#8), (2, 0x3C#8), (15, 0x55#8)])).map (fun t => (t.readV 1, t.readV 15)) =
      some (0xFC#8, 0x55#8) := by decide

/-- V-ALU-7. -/
theorem test_andReg :
    (after 0x8122 (regs [(1, 0xF0#8), (2, 0x3C#8), (15, 0x55#8)])).map (fun t => (t.readV 1, t.readV 15)) =
      some (0x30#8, 0x55#8) := by decide

/-- V-ALU-8. -/
theorem test_xorReg :
    (after 0x8123 (regs [(1, 0xF0#8), (2, 0x3C#8), (15, 0x55#8)])).map (fun t => (t.readV 1, t.readV 15)) =
      some (0xCC#8, 0x55#8) := by decide

/-- A1. -/
theorem test_addReg :
    (after 0x8124 (regs [(1, 250#8), (2, 10#8)])).map (fun t => (t.readV 1, t.readV 15)) = some (4#8, 1#8) := by decide

/-- V-ALU-14 (`x = 15`) and V-ALU-15 (`y = 15`). -/
theorem test_addReg_flag_operand :
    (after 0x8F14 (regs [(15, 0xF0#8), (1, 0x20#8)])).map (fun t => (t.readV 1, t.readV 15)) = some (0x20#8, 1#8) ∧
    (after 0x81F4 (regs [(1, 1#8), (15, 0xFF#8)])).map (fun t => (t.readV 1, t.readV 15)) = some (0#8, 1#8) := by decide

/-- A3. -/
theorem test_subReg :
    (after 0x8125 (regs [(1, 5#8), (2, 10#8)])).map (fun t => (t.readV 1, t.readV 15)) = some (251#8, 0#8) := by decide

/-- V-ALU-16 (equal) and V-ALU-19 (`x = 15`). -/
theorem test_subReg_edges :
    (after 0x8125 (regs [(1, 10#8), (2, 10#8)])).map (fun t => (t.readV 1, t.readV 15)) = some (0#8, 1#8) ∧
    (after 0x8F25 (regs [(15, 5#8), (2, 7#8)])).map (fun t => (t.readV 2, t.readV 15)) = some (7#8, 0#8) := by decide

/-- V-ALU-21: the source is `V[x]`. -/
theorem test_shr :
    (after 0x8126 (regs [(1, 1#8), (2, 0xFF#8)])).map (fun t => (t.readV 1, t.readV 15, t.readV 2)) =
      some (0#8, 1#8, 0xFF#8) := by decide

/-- A4, V-ALU-24 (`x = 15`). -/
theorem test_shr_edges :
    (after 0x8106 (regs [(1, 0x81#8)])).map (fun t => (t.readV 1, t.readV 15)) = some (0x40#8, 1#8) ∧
    (after 0x8F06 (regs [(15, 2#8)])).map (fun t => t.readV 15) = some 0#8 := by decide

/-- V-ALU-25. -/
theorem test_subnReg :
    (after 0x8127 (regs [(1, 10#8), (2, 5#8)])).map (fun t => (t.readV 1, t.readV 15, t.readV 2)) =
      some (251#8, 0#8, 5#8) := by decide

/-- V-ALU-27. -/
theorem test_subnReg_equal :
    (after 0x8127 (regs [(1, 9#8), (2, 9#8)])).map (fun t => (t.readV 1, t.readV 15)) = some (0#8, 1#8) := by decide

/-- V-ALU-28. -/
theorem test_shl : (after 0x810E (regs [(1, 0x81#8)])).map (fun t => (t.readV 1, t.readV 15)) = some (2#8, 1#8) := by decide

/-- V-ALU-29, V-ALU-30 (`x = 15`). -/
theorem test_shl_edges :
    (after 0x810E (regs [(1, 0x40#8), (15, 1#8)])).map (fun t => (t.readV 1, t.readV 15)) = some (0x80#8, 0#8) ∧
    (after 0x8F0E (regs [(15, 0x81#8)])).map (fun t => t.readV 15) = some 1#8 := by decide

/-- V-ALU-31 and V-ALU-33, for any sequence of bytes. -/
theorem test_rnd :
    (after 0xC30F State.reset).map (fun t => (t.readV 3, t.draws, t.pc)) =
      some (Config.randByte 0 &&& 0x0F#8, 1, 0x202#16) := by rfl

/-- V-ALU-32: nothing is left of the byte, and it is consumed. -/
theorem test_rnd_zero_mask : (after 0xCF00 State.reset).map (fun t => (t.readV 15, t.draws)) = some (0#8, 1) := by
  show some (Config.randByte 0 &&& 0#8, 1) = _
  rw [BitVec.and_zero]

/-! ## Index register and memory -/

/-- V-MEM-1. -/
theorem test_ldI : (after 0xA300 State.reset).map State.index = some 0x300#16 := by decide

/-- V-MEM-3, V-MEM-4: no flag, wraps at 16 bits. -/
theorem test_addIVx :
    (after 0xF11E { regs [(1, 1#8)] with index := 0xFFF#16 }).map (fun t => (t.index, t.readV 15)) =
      some (0x1000#16, 0#8) ∧
    (after 0xF11E { regs [(1, 1#8), (15, 9#8)] with index := 0xFFFF#16 }).map (fun t => (t.index, t.readV 15)) =
      some (0#16, 9#8) := by decide

/-- V-MEM-6: the low nibble. -/
theorem test_ldFVx : (after 0xF429 (regs [(4, 0x1A#8)])).map State.index = some 50#16 := by decide

/-- V-MEM-8a: `I + 1` passes 16 bits and the address wraps into the font. -/
theorem test_ldBVx :
    (after 0xFA33 { regs [(10, 255#8)] with index := 0xFFFF#16 }).map
      (fun t => (Memory.read t.mem 0xFFF, Memory.read t.mem 0, Memory.read t.mem 1, Memory.read t.mem 2)) =
      some (2#8, 5#8, 5#8, 0x90#8) := by decide

/-- V-MEM-7. -/
theorem test_ldBVx_digits :
    (after 0xFA33 { regs [(10, 254#8)] with index := 0x300#16 }).map
      (fun t => (Memory.read t.mem 0x300, Memory.read t.mem 0x301, Memory.read t.mem 0x302, t.index)) =
      some (2#8, 5#8, 4#8, 0x300#16) := by decide

/-- V-MEM-9. -/
theorem test_ldMemVx :
    (after 0xF255 { regs [(0, 1#8), (1, 2#8), (2, 3#8), (3, 4#8)] with index := 0x400#16 }).map
      (fun t => (Memory.read t.mem 0x400, Memory.read t.mem 0x401, Memory.read t.mem 0x402, Memory.read t.mem 0x403)) =
      some (1#8, 2#8, 3#8, 0#8) := by decide

/-- V-MEM-13: the instruction overwrites itself. -/
theorem test_ldMemVx_code :
    (after 0xF155 { regs [(0, 0x12#8), (1, 0x08#8)] with index := 0x200#16 }).map
      (fun t => (Memory.readWord t.mem 0x200, t.pc)) = some (0x1208#16, 0x202#16) := by decide

/-- V-MEM-11. -/
theorem test_ldVxMem :
    (after 0xF265 { withBytes (regs [(3, 0x99#8)]) 0x300 [2#8, 5#8, 4#8, 7#8] with index := 0x300#16 }).map
      (fun t => (t.readV 0, t.readV 1, t.readV 2, t.readV 3, t.index)) =
      some (2#8, 5#8, 4#8, 0x99#8, 0x300#16) := by decide

/-- V-MEM-12: glyph F of the default font, then the zeros above it. -/
theorem test_ldVxMem_font :
    (after 0xFF65 { regs [(15, 1#8)] with index := 75#16 }).map (fun t => t.v.toList) =
      some [0xF0#8, 0x80#8, 0xF0#8, 0x80#8, 0x80#8, 0#8, 0#8, 0#8, 0#8, 0#8, 0#8, 0#8, 0#8, 0#8, 0#8, 0#8] := by decide

/-! ## Display -/

/-- The picture with the given cells 1. -/
def pictureOf (cells : List Nat) : Picture := cells.foldl flipCell blankPicture

/-- V-DRW-1. -/
theorem test_cls :
    (after 0x00E0 { State.reset with fb := pictureOf [5, 2047] }).map (fun t => (t.fb, t.draw)) =
      some (blankPicture, true) := by decide

/-- V-DRW-5: both coordinates at 255, no clipping. -/
theorem test_drw :
    (after 0xD015 (regs [(0, 255#8), (1, 255#8)])).map (fun t => (t.fb, t.readV 15, t.draw)) =
      some (pictureOf [191, 192, 193, 194, 255, 258, 319, 322, 383, 386, 447, 448, 449, 450], 0#8, true) := by
  decide +kernel

/-- V-DRW-8 (one of two pixels collides), V-DRW-7 (both coordinates are the old `VF`). -/
theorem test_drw_flag :
    (after 0xD011 { withBytes State.reset 0x300 [0xC0#8] with index := 0x300#16, fb := pictureOf [1] }).map
      (fun t => (t.fb, t.readV 15)) = some (pictureOf [0], 1#8) ∧
    (after 0xDFF1 { withBytes (regs [(15, 3#8)]) 0x300 [0x80#8] with index := 0x300#16 }).map
      (fun t => (t.fb, t.readV 15)) = some (pictureOf [195], 0#8) := by decide +kernel

/-! ## Keypad and timers -/

/-- V-KEY-3 (the low nibble selects), V-KEY-2. -/
theorem test_skp :
    (after 0xE29E { regs [(2, 0x15#8)] with key := 0x0020#16 }).map State.pc = some 0x204#16 ∧
    (after 0xE29E (regs [(2, 7#8)])).map State.pc = some 0x202#16 := by decide

/-- V-KEY-4, V-KEY-5. -/
theorem test_sknp :
    (after 0xE2A1 (regs [(2, 7#8)])).map State.pc = some 0x204#16 ∧
    (after 0xE2A1 { regs [(2, 0x15#8)] with key := 0x0020#16 }).map State.pc = some 0x202#16 := by decide

/-- V-KEY-7: the lowest of keys 3 and 9. -/
theorem test_ldVxK :
    (after 0xF20A { State.reset with key := 0x0208#16 }).map (fun t => (t.readV 2, t.pc)) = some (3#8, 0x202#16) := by
  decide

/-- V-KEY-9: no key, at address 0. -/
theorem test_ldVxK_waits :
    after 0xF00A { State.reset with pc := 0#16 } =
      some ({ State.reset with pc := 0#16 }.withFetchWord 16 0xF00A) := by decide

/-- V-TMR-1. -/
theorem test_ldVxDT : (after 0xF507 { State.reset with dt := 0x2A#8 }).map (fun t => (t.readV 5, t.dt)) =
    some (0x2A#8, 0x2A#8) := by decide

/-- V-TMR-2. -/
theorem test_ldDTVx : (after 0xF315 (regs [(3, 7#8)])).map (fun t => (t.dt, t.st)) = some (7#8, 0#8) := by decide

/-- V-TMR-3. -/
theorem test_ldSTVx : (after 0xF018 (regs [(0, 0x10#8)])).map (fun t => (t.st, t.dt)) = some (0x10#8, 0#8) := by decide

/-- R66's worked example: `0000` moves `PC` on by 2 and changes nothing else. -/
theorem test_nopU : step State.reset = .next { State.reset with pc := 0x202#16 } := by rfl

/-! ## The host -/

/-- V-RST-1: all zero but `PC` and the overwritten font byte; the random source is not rewound. -/
theorem test_reset_call :
    (withBytes (withBytes { State.reset with
        v := State.reset.v.set 3 9#8, index := 0x345#16, pc := 0xABC#16, sp := 2, dt := 4#8, st := 5#8,
        fb := pictureOf [7], draw := true, key := 4#16, err := 0b11#2, draws := 6 } 0x200 [0x12#8]) 3 [0xAA#8]).resetCall =
      { State.reset with mem := [(3, 0xAA#8)], draws := 6 } := by decide

/-- V-LD-2, V-LD-1. -/
theorem test_load :
    (hostDoes (.loadProgram [1#8, 2#8]) (withBytes State.reset 0x204 [0x55#8])).map (fun u => (u.1.mem, u.1.pc, u.2)) =
      some ([(0x200, 1#8), (0x201, 2#8), (0x204, 0x55#8)], 0x200#16, .done) ∧
    hostDoes (.loadProgram []) State.reset = some (State.reset, .done) := by decide

/-- A7, V-TMR-5. -/
theorem test_tick :
    (hostDoes .tickTimers { State.reset with dt := 255#8, st := 2#8 }).map (fun u => (u.1.dt, u.1.st)) =
      some (254#8, 1#8) ∧
    hostDoes .tickTimers State.reset = some (State.reset, .done) := by decide

/-- V-TMR-6: a step moves no timer on, whatever it executes but `Fx15` and `Fx18`. -/
theorem test_step_does_not_tick :
    (after 0x1200 { State.reset with dt := 3#8, st := 3#8 }).map (fun t => (t.dt, t.st)) = some (3#8, 3#8) := by decide

/-- V-KEY-10 (set, not toggled), V-HOST-3. -/
theorem test_setKey :
    hostDoes (.setKey 4 true) { State.reset with key := 0x0010#16 } = some ({ State.reset with key := 0x0010#16 }, .done) ∧
    hostDoes (.setKey 16 true) State.reset = some (State.reset, .preconditionFailure) := by decide

/-- V-HOST-1, V-HOST-2, V-HOST-3. -/
theorem test_display_calls :
    hostDoes .clearDrawFlag { State.reset with draw := true } = some (State.reset, .done) ∧
    (hostDoes (.pixel 131) { State.reset with fb := pictureOf [131] }).map (fun u => u.2) = some (.bit true) ∧
    (hostDoes (.pixel 130) { State.reset with fb := pictureOf [131] }).map (fun u => u.2) = some (.bit false) ∧
    hostDoes (.pixel 2048) State.reset = some (State.reset, .preconditionFailure) := by decide

/-- V-FLOW-8 as the host sees it: the step reports the fault, and the read of `ERR` shows its bit. -/
theorem test_fault_report :
    (hostDoes .step (State.reset.withFetchWord 16 0x00EE)).map (fun u => (u.1.err, u.2)) =
      some (0b10#2, .stepped (some .stackUnderflow)) ∧
    (hostDoes .readErr { State.reset with err := 0b10#2 }).map (fun u => u.2) = some (.err 0b10#2) := by decide

/-! ## Witnesses: the hypotheses of each statement can be met, clause by clause at the edges of its range -/

theorem witness_ReturnPopsOrRecordsUnderflow :
    State.reset.sp.val = 0 ∧ (0 : Fin 16).val + 1 = ({ State.reset with sp := 1 } : State).sp.val ∧
    (15 : Fin 16).val + 1 = ({ State.reset with sp := 16 } : State).sp.val := by decide

theorem witness_CallPushesOrRecordsOverflow :
    ({ State.reset with sp := 16 } : State).sp.val = 16 ∧ (0 : Fin 16).val = State.reset.sp.val ∧
    (15 : Fin 16).val = ({ State.reset with sp := 15 } : State).sp.val := by decide

/-- For the flag-writing instructions' clause about `V[x]`. -/
theorem witness_destination_not_flag : (0 : Reg) ≠ 15 ∧ (14 : Reg) ≠ 15 := by decide

theorem witness_CarryAndBorrowIdentities :
    (14 : Reg) ≠ 15 ∧ (∃ t, exec (.addReg 14 15) State.reset = .next t) ∧
    (∃ t, exec (.subReg 14 15) State.reset = .next t) ∧ ∃ t, exec (.subnReg 14 15) State.reset = .next t :=
  ⟨by decide, ⟨_, rfl⟩, ⟨_, rfl⟩, ⟨_, rfl⟩⟩

/-- V-MEM-3: from `I = 0x0FFF` to `0x1000`. -/
theorem witness_LoadIndex :
    ∃ t, exec (.addIVx 1) { regs [(1, 1#8)] with index := 0xFFF#16 } = .next t ∧
      ({ regs [(1, 1#8)] with index := 0xFFF#16 } : State).index.toNat ≤ 0x0FFF ∧ 0x0FFF < t.index.toNat :=
  ⟨_, rfl, by decide, by decide⟩

theorem witness_register_block : (0 : Reg) ≤ 0 ∧ (0 : Reg) ≤ 15 ∧ (15 : Reg) ≤ 15 := by decide

theorem witness_StoreIsSeenByNextFetch :
    1 ≤ (1 : Reg).val ∧
    Memory.wrap ({ State.reset with index := 0x1202#16, pc := 0x202#16 } : State).index.toNat =
      Memory.wrap ({ State.reset with index := 0x1202#16, pc := 0x202#16 } : State).pc.toNat ∧
    ∃ t, exec (.ldMemVx 1) { State.reset with index := 0x1202#16, pc := 0x202#16 } = .next t :=
  ⟨by decide, by decide, ⟨_, rfl⟩⟩

theorem witness_CanonicalMemoryIsItsBytes :
    Memory.wf [(0, 1#8), (4095, 2#8)] = true ∧
    ∀ a, a < 4096 → Memory.read [(0, 1#8), (4095, 2#8)] a = Memory.read [(0, 1#8), (4095, 2#8)] a :=
  ⟨by decide, fun _ _ => rfl⟩

/-- `I = 0` points at the font byte `F0`, whose column 0 lands on cell 0. -/
theorem spriteHits_cell0 (s : State) (hm : s.mem = []) (hi : s.index = 0#16) (hx : s.readV 0 = 0#8) :
    spriteHits s 0 0 1 0 := by
  refine ⟨0, by decide, 0, by decide, ?_, ?_⟩
  · simp only [spriteBit, State.readAtIndex, hm, hi]; decide
  · rw [hx]; decide

theorem witness_DrawFlipsSpriteCells :
    (∃ c, spriteHits { State.reset with fb := pictureOf [0] } 0 0 1 c ∧
      ({ State.reset with fb := pictureOf [0] } : State).cell c = true) ∧
    ¬ ∃ c, spriteHits State.reset 0 0 1 c ∧ State.reset.cell c = true :=
  ⟨⟨0, spriteHits_cell0 _ rfl rfl rfl, by decide⟩,
   fun ⟨c, _, h⟩ => Bool.noConfusion (h.symm.trans (pictureCell_blank c))⟩

theorem witness_TargetCellFormulas :
    (14 : Nat) < 15 ∧ (7 : Nat) < 8 ∧ targetCell 255 255 14 7 = targetCell 255 255 14 7 := by decide

/-- The first draw has no collision, and the sprite has a set bit. -/
theorem witness_DrawingTwiceRestores :
    ∃ t u : State, exec (.drw 0 0 1#4) State.reset = .next t ∧ t.readV 0 = State.reset.readV 0 ∧
      exec (.drw 0 0 1#4) t = .next u ∧ t.readV 15 = 0#8 ∧ ∃ c, spriteHits State.reset 0 0 (1#4).toNat c :=
  ⟨_, _, rfl, by decide, rfl, by decide, 0, spriteHits_cell0 _ rfl rfl rfl⟩

theorem witness_CollisionMeansErasedCell : ∃ t, exec (.drw 0 0 1#4) { State.reset with fb := pictureOf [0] } = .next t :=
  ⟨_, rfl⟩

theorem witness_KeyWaitTakesLeastKey :
    (∀ k : Fin 16, State.reset.keyDown k.val = false) ∧
    (({ State.reset with key := 1#16 } : State).keyDown (0 : Fin 16).val = true ∧
      ∀ j : Fin 16, j < 0 → ({ State.reset with key := 1#16 } : State).keyDown j.val = false) ∧
    (({ State.reset with key := 0x8000#16 } : State).keyDown (15 : Fin 16).val = true ∧
      ∀ j : Fin 16, j < 15 → ({ State.reset with key := 0x8000#16 } : State).keyDown j.val = false) := by decide

theorem witness_UnrecognisedWordIsNoOp :
    unrecognised State.reset.fetch = true ∧
    unrecognised (State.reset.withFetchWord 16 0xFFFF).fetch = true := by decide

theorem witness_DecodeOfEncode :
    (Instr.nopU 0x0000#16).wellFormed = true ∧ (Instr.nopU 0xFFFF#16).wellFormed = true ∧
    (Instr.drw 15 15 0xF#4).wellFormed = true := by decide

theorem witness_StepRunsDecodedInstruction :
    decodeBytes [Memory.read (State.reset.withFetchWord 16 0x8124).mem 512,
      Memory.read (State.reset.withFetchWord 16 0x8124).mem (512 + 1)] = .ok (.addReg 1 2, []) := by rfl

theorem witness_StepLeavesPC :
    (∃ t, step (State.reset.withFetchWord 16 0x00EE) = .next t) ∧
    decode (State.reset.withFetchWord 16 0x00EE).fetch = .ret ∧
    (0 : Fin 16).val + 1 = ({ State.reset with sp := 1 } : State).sp.val ∧
    skipTaken (.seImm 0 0#8) State.reset ∧ ¬ skipTaken (.seImm 0 1#8) State.reset :=
  ⟨⟨_, rfl⟩, by decide, by decide, rfl, by show ¬ State.reset.readV 0 = 1#8; decide⟩

theorem witness_WriteSets : ∃ t, exec (.ldBVx 3) State.reset = .next t := ⟨_, rfl⟩

/-- Two states that differ outside what `8124` reads. -/
theorem witness_ReadSets :
    AgreeOn (readSet (.addReg 1 2) State.reset) State.reset { State.reset with index := 7#16, dt := 9#8 } ∧
    (∃ t, exec (.addReg 1 2) State.reset = .next t) ∧
    ∃ t, exec (.addReg 1 2) { State.reset with index := 7#16, dt := 9#8 } = .next t :=
  ⟨by constructor <;> first | exact fun _ _ => rfl | exact fun h => h.elim, ⟨_, rfl⟩, ⟨_, rfl⟩⟩

theorem witness_FaultsAreRecordedAndSticky :
    State.reset.pendingFault = none ∧
    ({ State.reset.withFetchWord 16 0x2300 with sp := 16 } : State).pendingFault = some .stackOverflow ∧
    (State.reset.withFetchWord 16 0x00EE).pendingFault = some .stackUnderflow ∧
    (∃ t, step State.reset = .next t) ∧ ∃ t, step (State.reset.withFetchWord 16 0x00EE) = .next t :=
  ⟨by decide, by decide, by decide, ⟨_, rfl⟩, ⟨_, rfl⟩⟩

theorem witness_LoopsAreFixedPoints :
    (State.reset.withFetchWord 16 0x1200).fetch = encodeNNN 0x1#4 0x200#12 ∧
    (State.reset.withFetchWord 16 0x1200).pc.toNat = (0x200#12).toNat ∧
    (State.reset.withFetchWord 16 0xF30A).fetch = encodeXKK 0xF#4 3 0x0A#8 ∧
    (State.reset.withFetchWord 16 0xF30A).key = 0#16 := by decide

/-- A6: a call at depth 15, and at its target a return. -/
theorem witness_CallThenReturn :
    ∃ s t u : State, s.fetch = encodeNNN 0x2#4 0x300#12 ∧ s.sp.val < 16 ∧ step s = .next t ∧
      t.fetch = 0x00EE#16 ∧ step t = .next u ∧ (14 : Fin 16).val < s.sp.val :=
  ⟨withBytes (withBytes { State.reset with sp := 15 } 0x200 [0x23#8, 0x00#8]) 0x300 [0x00#8, 0xEE#8],
    _, _, by decide, by decide, rfl, by decide, rfl, by decide⟩

theorem witness_OneDrawPerRandom :
    decode (State.reset.withFetchWord 16 0xC30F).fetch = .rnd 3 0x0F#8 ∧
    (∃ t, step (State.reset.withFetchWord 16 0xC30F) = .next t) ∧
    (∀ (x : Reg) (kk : Byte), decode State.reset.fetch ≠ .rnd x kk) ∧
    Transaction.reset ≠ .step ∧ ∃ u r, transact .reset State.reset = .next (u, r) :=
  ⟨by decide, ⟨_, rfl⟩, fun _ _ h => Instr.noConfusion ((show decode State.reset.fetch = .nopU 0#16 by decide).symm.trans h),
    by decide, ⟨_, _, rfl⟩⟩

theorem witness_PowerOnAndResetValues : 80 ≤ 80 ∧ 80 < 4096 ∧ 80 ≤ 4095 ∧ 4095 < 4096 ∧ 79 < 80 := by decide

theorem witness_LoadProgramContract :
    (List.replicate 3584 0#8).length ≤ 3584 ∧ 3583 < (List.replicate 3584 0#8).length ∧
    3584 < (List.replicate 3585 0#8).length := by
  rw [List.length_replicate, List.length_replicate]
  decide

/-- The word `0000` sets no timer, and `set_key` is none of the three transactions that can change one. -/
theorem witness_TicksCountDownToZero :
    (∃ t, step { State.reset with dt := 3#8 } = .next t) ∧
    (∀ x, decode State.reset.fetch ≠ .ldDTVx x) ∧ (∀ x, decode State.reset.fetch ≠ .ldSTVx x) ∧
    Transaction.setKey 4 true ≠ .tickTimers ∧ Transaction.setKey 4 true ≠ .reset ∧ Transaction.setKey 4 true ≠ .step ∧
    ∃ u r, transact (.setKey 4 true) { State.reset with dt := 3#8 } = .next (u, r) :=
  ⟨⟨_, rfl⟩, by decide, by decide, by decide, by decide, by decide, ⟨_, _, rfl⟩⟩

theorem witness_SetKeyStoresLevel : 15 < 16 ∧ 16 ≤ 16 ∧ 14 ≠ 15 := by decide

theorem witness_DisplayCalls : 0 < 2048 ∧ 2047 < 2048 ∧ 2048 ≤ 2048 := by decide

theorem witness_StepKeepsCanonicalMemory : State.reset.Inv ∧ ∃ t, step State.reset = .next t := ⟨rfl, ⟨_, rfl⟩⟩

/-- Not only the power-on state: a key press after it. -/
theorem witness_ReachableMemoryIsCanonical :
    ∃ s, Reachable s ∧ s.keyDown 4 = true :=
  ⟨_, .move _ _ (.setKey 4 true) .done (.powerOn (Vector.replicate 80 0#8)) rfl, by
    show ((0#16 ||| (1#16 <<< 4)) : BitVec 16).getLsbD 4 = true; decide⟩

theorem witness_ErrOnlyRisesBetweenResets :
    Transaction.reset ∉ [Transaction.step, .tickTimers] ∧
    (∃ u, runTransactions [.step, .tickTimers] { State.reset with err := 0b10#2 } = .next u) ∧
    ({ State.reset with err := 0b10#2 } : State).err.getLsbD 1 = true :=
  ⟨by decide, ⟨_, rfl⟩, by decide⟩

end Sys2Proof.Tests
end

section
/-! Frames of the shared operations (10_state.md R12, R15, R23): what each leaves unchanged, and from these the
write table of every instruction. -/

namespace Sys2Proof.Machine

/-! ## Agreement -/

theorem AgreeOn.refl (f : Footprint) (s : State) : AgreeOn f s s := by
  constructor <;> intros <;> rfl

/-- Any two states agree on the empty set. -/
theorem AgreeOn.empty (s t : State) : AgreeOn {} s t := by
  constructor <;> intros <;> contradiction

theorem ChangesOnly.refl (f : Footprint) (s : State) : ChangesOnly f s s := AgreeOn.refl _ s

/-! ## What each shared operation leaves unchanged -/

section Frames

variable (s : State)

theorem changesOnly_writeV (x : Reg) (b : Byte) : ChangesOnly { regs := fun r => r = x } s (s.writeV x b) :=
  { AgreeOn.refl _ s with regs := fun r (hr : ¬ r = x) => by simp [hr] }

theorem changesOnly_writeWithFlag (x : Reg) (b f : Byte) :
    ChangesOnly { regs := fun r => r = x ∨ r = regVF } s (s.writeWithFlag x b f) :=
  { AgreeOn.refl _ s with
    regs := fun r (hr : ¬ (r = x ∨ r = regVF)) => by
      rw [not_or] at hr
      simp [hr.1, hr.2] }

theorem changesOnly_setIndex (w : Word) : ChangesOnly { index := True } s (s.setIndex w) :=
  { AgreeOn.refl _ s with index := fun h => absurd trivial h }

theorem changesOnly_setPC (w : Word) : ChangesOnly { pc := True } s (s.setPC w) :=
  { AgreeOn.refl _ s with pc := fun h => absurd trivial h }

theorem changesOnly_skipIf (c : Bool) : ChangesOnly { pc := True } s (s.skipIf c) := by
  cases c with
  | true => exact changesOnly_setPC s _
  | false => exact ChangesOnly.refl _ s

theorem changesOnly_setDT (b : Byte) : ChangesOnly { dt := True } s (s.setDT b) :=
  { AgreeOn.refl _ s with dt := fun h => absurd trivial h }

theorem changesOnly_setST (b : Byte) : ChangesOnly { st := True } s (s.setST b) :=
  { AgreeOn.refl _ s with st := fun h => absurd trivial h }

theorem changesOnly_show (g : Picture) : ChangesOnly { cells := fun _ => True, draw := True } s (s.show g) :=
  { AgreeOn.refl _ s with cells := fun _ h => absurd trivial h, draw := fun h => absurd trivial h }

/-- A fault touches its own bit of `ERR` alone (60_exceptions.md R171). -/
theorem changesOnly_raise (f : Fault) {b : Fin 2} (hb : ∀ c : Fin 2, c ≠ b → (errBit f).getLsbD c.val = false) :
    ChangesOnly { err := fun c => c = b } s (s.raise f) :=
  { AgreeOn.refl _ s with
    err := fun c (hc : c ≠ b) => by rw [State.raise_err_bit, hb c hc, Bool.or_false] }

/-- A store at `I` reaches the addresses `(I + k) mod 4096` and no other (20_memory.md R43). -/
theorem changesOnly_writeAtIndex (bs : List Byte) {n : Nat} (hn : bs.length = n) :
    ChangesOnly { mem := atIndex s n } s (s.writeAtIndex bs) :=
  { AgreeOn.refl _ s with
    mem := fun a (ha : ¬ atIndex s n (Memory.wrap a)) =>
      (s.read_writeAtIndex_other bs a fun k hk heq => ha ⟨k, hn ▸ hk, heq⟩).symm }

theorem changesOnly_loadedRegs (x : Reg) :
    ChangesOnly { regs := fun r => r ≤ x } s { s with v := s.loadedRegs x } :=
  { AgreeOn.refl _ s with
    regs := fun r (hr : ¬ r ≤ x) => by rw [State.readV_loadedRegs, if_neg hr] }

theorem changesOnly_rnd (x : Reg) (b : Byte) :
    ChangesOnly { regs := fun r => r = x, draws := True } s (s.consumeDraw.writeV x b) :=
  { AgreeOn.refl _ s with
    regs := fun r (hr : ¬ r = x) => by simp [hr]
    draws := fun h => absurd trivial h }

theorem changesOnly_drw (g : Picture) (b : Byte) :
    ChangesOnly { regs := fun r => r = regVF, cells := fun _ => True, draw := True } s
      ((s.show g).writeV regVF b) :=
  { AgreeOn.refl _ s with
    regs := fun r (hr : ¬ r = regVF) => by simp [hr]
    cells := fun _ h => absurd trivial h
    draw := fun h => absurd trivial h }

/-- A call writes the slot at `SP`, or records the overflow and nothing else (40_flow.md R102). -/
theorem changesOnly_call (nnn : Imm12) (w target : Word) :
    ChangesOnly (writeSet (.call nnn) s) s (s.pushThen w fun t => t.setPC target) := by
  rcases s.pushThen_cases w (fun t => t.setPC target) with ⟨hfull, h⟩ | ⟨hroom, h⟩
  · rw [h, writeSet, if_pos hfull]
    exact changesOnly_raise s _ (by decide)
  · rw [h, writeSet, if_neg hroom.ne]
    exact { AgreeOn.refl _ s with
      sp := fun h => absurd trivial h
      pc := fun h => absurd trivial h
      slots := fun k (hk : ¬ k.val = s.sp.val) => by simp [Ne.symm hk] }

/-- A return counts `SP` down and writes no slot, or records the underflow and nothing else (40_flow.md R100). -/
theorem changesOnly_ret : ChangesOnly (writeSet .ret s) s (s.popThen fun w t => t.setPC w) := by
  rcases s.popThen_cases (fun w t => t.setPC w) with ⟨hempty, h⟩ | ⟨hlive, h⟩
  · rw [h, writeSet, if_pos hempty]
    exact changesOnly_raise s _ (by decide)
  · rw [h, writeSet, if_neg hlive.ne']
    exact { AgreeOn.refl _ s with
      sp := fun h => absurd trivial h
      pc := fun h => absurd trivial h }

end Frames

/-! ## The key wait (45_keypad_timers.md R162) -/

/-- A key wait goes back to itself when no key is down, and otherwise takes the key that the scan finds. -/
theorem execLdVxK_cases (x : Reg) (s : State) :
    (s.key = 0#16 ∧ execLdVxK x s = .next s.stepBack) ∨
    ∃ k, s.key ≠ 0#16 ∧ s.firstKey = some k ∧ execLdVxK x s = .next (s.writeV x (BitVec.ofNat 8 k)) := by
  unfold execLdVxK
  cases hk : s.firstKey with
  | none => exact .inl ⟨s.firstKey_none_iff.1 hk, rfl⟩
  | some k => exact .inr ⟨k, fun h0 => by simp [s.firstKey_none_iff.2 h0] at hk, rfl, rfl⟩

theorem changesOnly_ldVxK {x : Reg} {s t : State} (h : exec (.ldVxK x) s = .next t) :
    ChangesOnly (writeSet (.ldVxK x) s) s t := by
  rcases execLdVxK_cases x s with ⟨hkey, he⟩ | ⟨k, hkey, -, he⟩ <;> cases h.symm.trans he
  · rw [writeSet, if_pos hkey]
    exact changesOnly_setPC s _
  · rw [writeSet, if_neg hkey]
    exact changesOnly_writeV s x _

/-! ## Every instruction -/

/-- Each meaning is one of the shared operations, whose frame is its row of the write table (10_state.md R23). -/
theorem exec_changesOnly {i : Instr} {s t : State} (h : exec i s = .next t) : ChangesOnly (writeSet i s) s t := by
  cases i with
  | cls => cases h; exact changesOnly_show s _
  | ret => cases h; exact changesOnly_ret s
  | call nnn => cases h; exact changesOnly_call s nnn _ _
  | jp | jpV0 => cases h; exact changesOnly_setPC s _
  | seImm | sneImm | seReg | sneReg | skp | sknp => cases h; exact changesOnly_skipIf s _
  | ldImm x | addImm x | ldReg x | orReg x | andReg x | xorReg x | ldVxDT x =>
    cases h; exact changesOnly_writeV s x _
  | addReg x | subReg x | shr x | subnReg x | shl x => cases h; exact changesOnly_writeWithFlag s x _ _
  | ldI | addIVx | ldFVx => cases h; exact changesOnly_setIndex s _
  | rnd x => cases h; exact changesOnly_rnd s x _
  | drw => cases h; exact changesOnly_drw s _ _
  | ldVxK => exact changesOnly_ldVxK h
  | ldDTVx => cases h; exact changesOnly_setDT s _
  | ldSTVx => cases h; exact changesOnly_setST s _
  | ldBVx => cases h; exact changesOnly_writeAtIndex s _ rfl
  | ldMemVx x => cases h; exact changesOnly_writeAtIndex s _ (s.regsUpTo_length x)
  | ldVxMem x => cases h; exact changesOnly_loadedRegs s x
  | nopU => cases h; exact ChangesOnly.refl _ s

/-- Settles O44: every instruction stays within its row of R23's write table. -/
theorem writeSets : Obligations.WriteSets := fun _ _ _ h => exec_changesOnly h

end Sys2Proof.Machine
end

section
/-! Two runs side by side (10_state.md R23): the pieces a shared operation writes are the same after it when the values
written are. -/

namespace Sys2Proof.Machine

section Agreement

variable {s s' : State}

theorem agreeOn_writeV (x : Reg) {b b' : Byte} (hb : b = b') :
    AgreeOn { regs := fun r => r = x } (s.writeV x b) (s'.writeV x b') :=
  { AgreeOn.empty _ _ with regs := fun r (hr : r = x) => by simp [hr, hb] }

theorem agreeOn_writeWithFlag (x : Reg) {b b' f f' : Byte} (hb : b = b') (hf : f = f') :
    AgreeOn { regs := fun r => r = x ∨ r = regVF } (s.writeWithFlag x b f) (s'.writeWithFlag x b' f') :=
  { AgreeOn.empty _ _ with
    regs := fun r (hr : r = x ∨ r = regVF) => by
      rcases hr with rfl | rfl <;> simp [hb, hf] }

theorem agreeOn_setIndex {w w' : Word} (hw : w = w') : AgreeOn { index := True } (s.setIndex w) (s'.setIndex w') :=
  { AgreeOn.empty _ _ with index := fun _ => hw }

theorem agreeOn_setPC {w w' : Word} (hw : w = w') : AgreeOn { pc := True } (s.setPC w) (s'.setPC w') :=
  { AgreeOn.empty _ _ with pc := fun _ => hw }

theorem agreeOn_skipIf {c c' : Bool} (hpc : s.pc = s'.pc) (hc : c = c') :
    AgreeOn { pc := True } (s.skipIf c) (s'.skipIf c') :=
  { AgreeOn.empty _ _ with pc := fun _ => by simp [hpc, hc] }

theorem agreeOn_setDT {b b' : Byte} (hb : b = b') : AgreeOn { dt := True } (s.setDT b) (s'.setDT b') :=
  { AgreeOn.empty _ _ with dt := fun _ => hb }

theorem agreeOn_setST {b b' : Byte} (hb : b = b') : AgreeOn { st := True } (s.setST b) (s'.setST b') :=
  { AgreeOn.empty _ _ with st := fun _ => hb }

theorem agreeOn_show (g : Picture) :
    AgreeOn { cells := fun _ => True, draw := True } (s.show g) (s'.show g) :=
  { AgreeOn.empty _ _ with cells := fun _ _ => rfl, draw := fun _ => rfl }

/-- A fault sets its bit of `ERR` whatever the bit was (60_exceptions.md R171). -/
theorem agreeOn_raise (f : Fault) {b : Fin 2} (hb : (errBit f).getLsbD b.val = true) :
    AgreeOn { err := fun c => c = b } (s.raise f) (s'.raise f) :=
  { AgreeOn.empty _ _ with
    err := fun c (hc : c = b) => by rw [hc, State.raise_err_bit, State.raise_err_bit, hb, Bool.or_true, Bool.or_true] }

theorem agreeOn_rnd (x : Reg) {b b' : Byte} (hb : b = b') (hd : s.draws = s'.draws) :
    AgreeOn { regs := fun r => r = x, draws := True } (s.consumeDraw.writeV x b) (s'.consumeDraw.writeV x b') :=
  { AgreeOn.empty _ _ with
    regs := fun r (hr : r = x) => by simp [hr, hb]
    draws := fun _ => by simp [hd] }

theorem agreeOn_drw {p p' : Canvas} (hp : p = p') :
    AgreeOn { regs := fun r => r = regVF, cells := fun _ => True, draw := True }
      ((s.show p.1).writeV regVF (flagByte p.2)) ((s'.show p'.1).writeV regVF (flagByte p'.2)) :=
  { AgreeOn.empty _ _ with
    regs := fun r (hr : r = regVF) => by simp [hr, hp]
    cells := fun _ _ => by simp [hp]
    draw := fun _ => rfl }

/-! ## Memory at `I` -/

/-- Two states that agree on the bytes an access at `I` reaches read the same there. -/
theorem readAtIndex_congr {n k : Nat} (hindex : s.index = s'.index)
    (hmem : ∀ a, atIndex s n (Memory.wrap a) → Memory.read s.mem a = Memory.read s'.mem a) (hk : k < n) :
    s.readAtIndex k = s'.readAtIndex k := by
  rw [State.readAtIndex, State.readAtIndex, ← hindex]
  exact hmem _ ⟨k, hk, rfl⟩

/-- The same bytes stored at the same `I` read back the same, whatever memory held before. -/
theorem agreeOn_writeAtIndex {bs : List Byte} {n : Nat} (hn : bs.length = n) (hmax : n ≤ Config.memSize)
    (hindex : s.index = s'.index) : AgreeOn { mem := atIndex s n } (s.writeAtIndex bs) (s'.writeAtIndex bs) :=
  { AgreeOn.empty _ _ with
    mem := by
      rintro a ⟨k, hk, hwrap⟩
      subst hn
      rw [← Memory.read_wrap _ a, ← Memory.read_wrap _ a, hwrap, Memory.read_wrap, Memory.read_wrap,
        s.read_writeAtIndex_same bs k hmax hk, hindex, s'.read_writeAtIndex_same bs k hmax hk] }

theorem agreeOn_loadedRegs {x : Reg} (h : ∀ k, k < x.val + 1 → s.readAtIndex k = s'.readAtIndex k) :
    AgreeOn { regs := fun r => r ≤ x } { s with v := s.loadedRegs x } { s' with v := s'.loadedRegs x } :=
  { AgreeOn.empty _ _ with
    regs := fun r (hr : r ≤ x) => by
      rw [State.readV_loadedRegs, State.readV_loadedRegs, if_pos hr, if_pos hr, h _ (Nat.lt_succ_of_le hr)] }

theorem regsUpTo_congr {x : Reg} (h : ∀ r, r ≤ x → s.readV r = s'.readV r) : s.regsUpTo x = s'.regsUpTo x := by
  refine List.ext_getElem (by simp only [State.regsUpTo_length]) fun k hk hk' => ?_
  rw [State.regsUpTo_get, State.regsUpTo_get]
  rw [State.regsUpTo_length] at hk
  exact h _ (Nat.le_of_lt_succ hk)

/-! ## Drawing -/

/-- A draw depends on the sprite's bytes only in the rows it draws (44_display.md R151). -/
theorem drawRows_congr (vx vy : Nat) {sprite sprite' : Nat → Byte} (k row : Nat) (p : Canvas)
    (h : ∀ j, j < row + k → sprite j = sprite' j) :
    drawRows vx vy sprite row k p = drawRows vx vy sprite' row k p := by
  induction k generalizing row p with
  | zero => rfl
  | succ k ih => rw [drawRows, drawRows, h row (by omega), ih (row + 1) _ fun j hj => h j (by omega)]

theorem AgreeOn.fb_eq {f : Footprint} (h : AgreeOn f s s') (hall : ∀ c, f.cells c) : s.fb = s'.fb :=
  picture_ext fun c _ => h.cells c (hall c)

/-! ## Keys -/

theorem keyDown_congr (hkey : s.key = s'.key) (k : Nat) : s.keyDown k = s'.keyDown k := by
  rw [State.keyDown, State.keyDown, hkey]

theorem firstKey_congr (hkey : s.key = s'.key) : s.firstKey = s'.firstKey := by
  rw [State.firstKey, State.firstKey, funext (keyDown_congr hkey)]

/-! ## Stack and key wait -/

/-- `SP` decides between the push and the overflow, and `npc` is what is pushed (40_flow.md R102). -/
theorem agreeOn_call (nnn : Imm12) {w w' : Word} (target : Word) (hsp : s.sp = s'.sp) (hw : w = w') :
    AgreeOn (writeSet (.call nnn) s) (s.pushThen w fun t => t.setPC target)
      (s'.pushThen w' fun t => t.setPC target) := by
  rcases s.pushThen_cases w (fun t => t.setPC target) with ⟨hfull, h⟩ | ⟨hroom, h⟩
  · rw [h, State.pushThen_full s' _ _ (hsp ▸ hfull), writeSet, if_pos hfull]
    exact agreeOn_raise _ (by decide)
  · rw [h, State.pushThen_room s' _ _ (hsp ▸ hroom), writeSet, if_neg hroom.ne]
    exact { AgreeOn.empty _ _ with
      sp := fun _ => by simp [hsp]
      pc := fun _ => rfl
      slots := fun k (hk : k.val = s.sp.val) => by simp [hk, hw, ← hsp] }

/-- `SP` decides between the pop and the underflow, and the slot below it is what is popped (40_flow.md R100). -/
theorem agreeOn_ret (hsp : s.sp = s'.sp) (hslot : ∀ k : Fin 16, k.val + 1 = s.sp.val → s.stack[k] = s'.stack[k]) :
    AgreeOn (writeSet .ret s) (s.popThen fun w t => t.setPC w) (s'.popThen fun w t => t.setPC w) := by
  rcases s.popThen_cases (fun w t => t.setPC w) with ⟨hempty, h⟩ | ⟨hlive, h⟩
  · rw [h, State.popThen_empty s' _ (hsp ▸ hempty), writeSet, if_pos hempty]
    exact agreeOn_raise _ (by decide)
  · rw [h, State.popThen_live s' _ (hsp ▸ hlive), writeSet, if_neg hlive.ne']
    exact { AgreeOn.empty _ _ with
      sp := fun _ => by simp [hsp]
      pc := fun _ => by
        have := hslot ⟨s.sp.val - 1, by omega⟩ (Nat.sub_add_cancel hlive)
        simpa [← hsp] using this }

theorem agreeOn_ldVxK {x : Reg} {t t' : State} (hkey : s.key = s'.key) (hpc : s.pc = s'.pc)
    (ht : exec (.ldVxK x) s = .next t) (ht' : exec (.ldVxK x) s' = .next t') :
    AgreeOn (writeSet (.ldVxK x) s) t t' := by
  rcases execLdVxK_cases x s with ⟨h0, h⟩ | ⟨k, h0, hk, h⟩ <;>
    rcases execLdVxK_cases x s' with ⟨h0', h'⟩ | ⟨k', h0', hk', h'⟩ <;>
    cases ht.symm.trans h <;> cases ht'.symm.trans h'
  · rw [writeSet, if_pos h0]
    exact agreeOn_setPC (by rw [hpc])
  · exact absurd (hkey ▸ h0) h0'
  · exact absurd (hkey ▸ h0') h0
  · rw [writeSet, if_neg h0]
    rw [firstKey_congr hkey, hk'] at hk
    cases hk
    exact agreeOn_writeV x rfl

end Agreement

/-! ## Every instruction -/

/-- The row of the read table holds every value that the shared operation is given (10_state.md R23). -/
theorem exec_agreeOn {i : Instr} {s s' t t' : State} (hread : AgreeOn (readSet i s) s s')
    (h : exec i s = .next t) (h' : exec i s' = .next t') : AgreeOn (writeSet i s) t t' := by
  cases i with
  | cls => cases h; cases h'; exact agreeOn_show _
  | ret => cases h; cases h'; exact agreeOn_ret (hread.sp trivial) hread.slots
  | jp => cases h; cases h'; exact agreeOn_setPC rfl
  | call nnn => cases h; cases h'; exact agreeOn_call nnn _ (hread.sp trivial) (hread.pc trivial)
  | jpV0 => cases h; cases h'; exact agreeOn_setPC (by rw [hread.regs 0 rfl])
  | seImm x | sneImm x =>
    cases h; cases h'
    exact agreeOn_skipIf (hread.pc trivial) (by rw [hread.regs x rfl])
  | seReg x y | sneReg x y =>
    have hx := hread.regs x (.inl rfl)
    have hy := hread.regs y (.inr rfl)
    cases h; cases h'
    exact agreeOn_skipIf (hread.pc trivial) (by simp only [hx, hy])
  | skp x | sknp x =>
    cases h; cases h'
    exact agreeOn_skipIf (hread.pc trivial) (by rw [hread.regs x rfl, keyDown_congr (hread.keys trivial)])
  | ldImm x => cases h; cases h'; exact agreeOn_writeV x rfl
  | addImm x => cases h; cases h'; exact agreeOn_writeV x (by rw [hread.regs x rfl])
  | ldReg x y => cases h; cases h'; exact agreeOn_writeV x (hread.regs y rfl)
  | ldVxDT x => cases h; cases h'; exact agreeOn_writeV x (hread.dt trivial)
  | orReg x y | andReg x y | xorReg x y =>
    have hx := hread.regs x (.inl rfl)
    have hy := hread.regs y (.inr rfl)
    cases h; cases h'
    exact agreeOn_writeV x (by simp only [hx, hy])
  | addReg x y | subReg x y | subnReg x y =>
    have hx := hread.regs x (.inl rfl)
    have hy := hread.regs y (.inr rfl)
    cases h; cases h'
    exact agreeOn_writeWithFlag x (by simp only [hx, hy]) (by simp only [hx, hy])
  | shr x | shl x =>
    have hx := hread.regs x rfl
    cases h; cases h'
    exact agreeOn_writeWithFlag x (by rw [hx]) (by rw [hx])
  | ldI => cases h; cases h'; exact agreeOn_setIndex rfl
  | addIVx x => cases h; cases h'; exact agreeOn_setIndex (by rw [hread.index trivial, hread.regs x rfl])
  | ldFVx x => cases h; cases h'; exact agreeOn_setIndex (by rw [hread.regs x rfl])
  | rnd x =>
    have hd := hread.draws trivial
    cases h; cases h'
    exact agreeOn_rnd x (by rw [State.randByte, State.randByte, hd]) hd
  | drw x y n =>
    have hrows := drawRows_congr (s'.readV x).toNat (s'.readV y).toNat n.toNat 0 (s'.fb, false)
      fun j hj => readAtIndex_congr (hread.index trivial) hread.mem (by omega : j < n.toNat)
    cases h; cases h'
    exact agreeOn_drw (by
      rw [hread.regs x (.inl rfl), hread.regs y (.inr rfl), hread.fb_eq fun _ => trivial, hrows])
  | ldVxK => exact agreeOn_ldVxK (hread.keys trivial) (hread.pc trivial) h h'
  | ldDTVx x => cases h; cases h'; exact agreeOn_setDT (hread.regs x rfl)
  | ldSTVx x => cases h; cases h'; exact agreeOn_setST (hread.regs x rfl)
  | ldBVx x =>
    cases h; cases h'
    rw [← hread.regs x rfl]
    exact agreeOn_writeAtIndex rfl (by decide) (hread.index trivial)
  | ldMemVx x =>
    cases h; cases h'
    rw [← regsUpTo_congr hread.regs]
    exact agreeOn_writeAtIndex (s.regsUpTo_length x) (Nat.le_trans x.isLt (by decide)) (hread.index trivial)
  | ldVxMem =>
    cases h; cases h'
    exact agreeOn_loadedRegs fun k hk => readAtIndex_congr (hread.index trivial) hread.mem hk
  | nopU => exact AgreeOn.empty _ _

/-- Settles O45: what an instruction writes is a function of its row of R23's read table. -/
theorem readSets : Obligations.ReadSets := fun _ _ _ _ _ hread h h' => exec_agreeOn hread h h'

end Sys2Proof.Machine
end

section
/-! What a step does to `PC`, the random position and `ERR`; the values after power-on and `reset()`; the host's
transactions and runs of them (10_state.md R13, R26 to R28). -/

namespace Sys2Proof.Machine

/-! ## The program counter -/

/-- An instruction whose row has no `PC` leaves it at `npc` (10_state.md R13). -/
theorem exec_pc_of_not_writeSet {i : Instr} {s t : State} (h : exec i s.advance = .next t)
    (hi : ¬ (writeSet i s.advance).pc) : t.pc.toNat = (s.pc.toNat + 2) % 65536 := by
  rw [← (exec_changesOnly h).pc hi, State.advance_pc, BitVec.toNat_add]
  rfl

/-- The skip's two outcomes in R13's table. -/
theorem skipIf_advance_pc (s : State) {c : Bool} {p : Prop} (hc : c = true ↔ p) :
    (p → (s.advance.skipIf c).pc.toNat = ((s.pc.toNat + 2) % 65536 + 2) % 65536) ∧
    (¬ p → (s.advance.skipIf c).pc.toNat = (s.pc.toNat + 2) % 65536) := by
  rw [← hc]
  cases c <;> simp

theorem jpV0_target_toNat (nnn : Imm12) (b : Byte) : (target12 nnn + zext16 b).toNat = nnn.toNat + b.toNat := by
  have hn := nnn.isLt
  have hb := b.isLt
  rw [BitVec.toNat_add, target12_toNat, zext16_toNat]
  omega

theorem execCall_pc (nnn : Imm12) (s : State) :
    (s.advance.pushThen s.advance.pc fun t => t.setPC (target12 nnn)).pc.toNat =
      if s.sp.val = 16 then (s.pc.toNat + 2) % 65536 else nnn.toNat := by
  rcases s.advance.pushThen_cases s.advance.pc (fun t => t.setPC (target12 nnn)) with ⟨hfull, h⟩ | ⟨hroom, h⟩
  · rw [h, if_pos (show s.sp.val = 16 from hfull)]
    simp
  · rw [h, if_neg (show s.sp.val ≠ 16 from hroom.ne)]
    simp

theorem execRet_pc (s : State) :
    leavesPC .ret s (s.advance.popThen fun w t => t.setPC w).pc.toNat := by
  rcases s.advance.popThen_cases (fun w t => t.setPC w) with ⟨hempty, h⟩ | ⟨hlive, h⟩ <;> rw [h]
  · exact ⟨fun _ => by simp, fun k hk => absurd (hk.trans hempty) (by omega)⟩
  · refine ⟨fun h0 => absurd h0 hlive.ne', fun k hk => ?_⟩
    simp [← hk]

theorem execLdVxK_pc {x : Reg} {s t : State} (h : exec (.ldVxK x) s.advance = .next t) :
    leavesPC (.ldVxK x) s t.pc.toNat := by
  rcases execLdVxK_cases x s.advance with ⟨hkey, he⟩ | ⟨k, hkey, -, he⟩ <;> cases h.symm.trans he
  · simp [leavesPC, show s.key = 0#16 from hkey]
  · simp [leavesPC, show s.key ≠ 0#16 from hkey]

theorem exec_leavesPC {i : Instr} {s t : State} (h : exec i s.advance = .next t) : leavesPC i s t.pc.toNat := by
  cases i with
  | jp nnn => cases h; exact target12_toNat nnn
  | call nnn => cases h; exact execCall_pc nnn s
  | ret => cases h; exact execRet_pc s
  | jpV0 nnn => cases h; exact jpV0_target_toNat nnn _
  | ldVxK => exact execLdVxK_pc h
  | seImm | sneImm | seReg | sneReg => cases h; exact skipIf_advance_pc s decide_eq_true_iff
  | skp x => cases h; exact skipIf_advance_pc s (by rw [lowNibble_eq]; rfl)
  | sknp x => cases h; exact skipIf_advance_pc s (by rw [lowNibble_eq, Bool.not_eq_true']; rfl)
  | _ => exact exec_pc_of_not_writeSet h id

/-- Settles O43: what a step leaves in `PC`, row by row of R13's table. -/
theorem stepLeavesPC : Obligations.StepLeavesPC := fun _ _ h => exec_leavesPC h

/-! ## The host's transactions -/

/-- Everything a transaction can do to the state: a step, one of the host's five updates, or nothing (a query or a
refused call). -/
theorem transact_cases {c : Transaction} {s u : State} {r : Response} (h : transact c s = .next (u, r)) :
    (c = .step ∧ step s = .next u) ∨ (c = .reset ∧ u = s.resetCall) ∨
    (∃ bytes, c = .loadProgram bytes ∧ bytes.length ≤ Config.progMax ∧ u = s.loadImage bytes) ∨
    (c = .tickTimers ∧ u = s.tickTimers) ∨
    (∃ (k : Fin 16) (pressed : Bool), c = .setKey k pressed ∧ u = s.setKey k pressed) ∨
    (c = .clearDrawFlag ∧ u = s.clearDrawFlag) ∨ u = s := by
  cases c with
  | step =>
    rw [transact] at h
    split at h <;> cases h
    exact .inl ⟨rfl, by assumption⟩
  | reset => cases h; exact .inr (.inl ⟨rfl, rfl⟩)
  | loadProgram bytes =>
    rw [transact] at h
    split at h <;> cases h
    · next hlen => exact .inr (.inr (.inl ⟨bytes, rfl, hlen, rfl⟩))
    · simp
  | tickTimers => cases h; simp
  | setKey index pressed =>
    rw [transact] at h
    split at h <;> cases h
    · next hk => exact .inr (.inr (.inr (.inr (.inl ⟨⟨index, hk⟩, pressed, rfl, rfl⟩))))
    · simp
  | clearDrawFlag => cases h; simp
  | pixel =>
    rw [transact] at h
    split at h <;> cases h <;> simp
  | drawFlag | readErr => cases h; simp

/-- What every transaction of a run keeps, the run keeps. -/
theorem runTransactions_keeps {P : State → Prop} {ts : List Transaction}
    (hstep : ∀ c ∈ ts, ∀ s u r, P s → transact c s = .next (u, r) → P u) {s u : State} (hs : P s)
    (h : runTransactions ts s = .next u) : P u := by
  induction ts generalizing s with
  | nil => cases h; exact hs
  | cons c ts ih =>
    rw [runTransactions] at h
    split at h
    · next v r hv =>
      exact ih (fun c hc => hstep c (.tail _ hc)) (hstep c (.head _) s v r hs hv) h
    · cases h
    · cases h

/-! ## The random source (10_state.md R26) -/

theorem writeSet_not_draws {i : Instr} (hi : ∀ (x : Reg) (kk : Byte), i ≠ .rnd x kk) (s : State) :
    ¬ (writeSet i s).draws := by
  cases i with
  | rnd x kk => exact absurd rfl (hi x kk)
  | ret | call | ldVxK => rw [writeSet]; split <;> exact id
  | _ => exact id

theorem transact_draws {c : Transaction} {s u : State} {r : Response} (hc : c ≠ .step)
    (h : transact c s = .next (u, r)) : u.draws = s.draws := by
  rcases transact_cases h with
    ⟨hstep, -⟩ | ⟨-, rfl⟩ | ⟨_, -, -, rfl⟩ | ⟨-, rfl⟩ | ⟨_, _, -, rfl⟩ | ⟨-, rfl⟩ | rfl
  · exact absurd hstep hc
  all_goals rfl

/-- Settles O49: only `Cxkk` has the random position in its write set, and no host transaction moves it. -/
theorem oneDrawPerRandom : Obligations.OneDrawPerRandom := by
  refine ⟨fun s t x kk hi h => ?_, fun s t hi h => ?_, fun s u c r => transact_draws⟩
  · rw [step, hi] at h
    cases h
    rfl
  · exact ((exec_changesOnly h).draws (writeSet_not_draws hi _)).symm

/-! ## `ERR` only rises (10_state.md R21, R28) -/

theorem writeSet_not_err {i : Instr} (hret : i ≠ .ret) (hcall : ∀ nnn, i ≠ .call nnn) (s : State) (b : Fin 2) :
    ¬ (writeSet i s).err b := by
  cases i with
  | ret => exact absurd rfl hret
  | call nnn => exact absurd rfl (hcall nnn)
  | ldVxK => rw [writeSet]; split <;> exact id
  | _ => exact id

theorem ChangesOnly.err_eq {f : Footprint} {s t : State} (h : ChangesOnly f s t) (hf : ∀ b, ¬ f.err b) :
    t.err = s.err :=
  BitVec.eq_of_getLsbD_eq fun b hb => (h.err ⟨b, hb⟩ (hf _)).symm

theorem raise_err_rises {s : State} {b : Nat} (f : Fault) (hb : s.err.getLsbD b = true) :
    (s.raise f).err.getLsbD b = true := by
  rw [State.raise_err_bit, hb, Bool.true_or]

/-- Only `00EE` and `2nnn` touch `ERR`, and they only raise (60_exceptions.md R171). -/
theorem exec_err_rises {i : Instr} {s t : State} {b : Nat} (hb : s.err.getLsbD b = true)
    (h : exec i s = .next t) : t.err.getLsbD b = true := by
  cases i with
  | ret =>
    cases h
    rcases s.popThen_cases (fun w t => t.setPC w) with ⟨_, he⟩ | ⟨_, he⟩ <;> rw [he]
    · exact raise_err_rises _ hb
    · exact hb
  | call nnn =>
    cases h
    rcases s.pushThen_cases s.pc (fun t => t.setPC (target12 nnn)) with ⟨_, he⟩ | ⟨_, he⟩ <;> rw [he]
    · exact raise_err_rises _ hb
    · exact hb
  | _ =>
    rw [(exec_changesOnly h).err_eq (writeSet_not_err (by nofun) (by nofun) s)]
    exact hb

theorem transact_err_rises {c : Transaction} {s u : State} {r : Response} {b : Nat} (hc : c ≠ .reset)
    (hb : s.err.getLsbD b = true) (h : transact c s = .next (u, r)) : u.err.getLsbD b = true := by
  rcases transact_cases h with
    ⟨-, hstep⟩ | ⟨hreset, -⟩ | ⟨_, -, -, rfl⟩ | ⟨-, rfl⟩ | ⟨_, _, -, rfl⟩ | ⟨-, rfl⟩ | rfl
  · exact exec_err_rises (s := s.advance) hb hstep
  · exact absurd hreset hc
  all_goals exact hb

/-- Settles O60: every transaction but `reset()` keeps a set bit of `ERR` set, so every run without it does. -/
theorem errOnlyRisesBetweenResets : Obligations.ErrOnlyRisesBetweenResets := by
  intro ts s u hts h b hb
  refine runTransactions_keeps (P := fun s => s.err.getLsbD b = true) (fun c hc s u r hs => ?_) hb h
  exact transact_err_rises (fun hreset => hts (hreset ▸ hc)) hs

/-! ## Power-on and reset (10_state.md R27) -/

/-- The values R27 lists do not speak of memory or of the random position. -/
theorem hasResetValues_reset_with (m : Memory) (d : Nat) :
    HasResetValues { State.reset with mem := m, draws := d } where
  regs r := by simp [State.readV, State.reset]
  index := rfl
  pc := rfl
  sp := rfl
  slots k := by simp [State.reset]
  dt := rfl
  st := rfl
  cells c := pictureCell_blank c
  draw := rfl
  keys k := by simp [State.keyDown, State.reset]
  err := rfl

theorem read_powerOn_font (font : Vector Byte 80) (a : Fin 80) :
    Memory.read (State.powerOn font).mem a.val = font[a] := by
  have := Memory.read_writeBytes_same font.toList [] 0 a.val (by rw [Vector.length_toList]; decide) (by simp)
  rw [Nat.zero_add] at this
  simpa [State.powerOn] using this

theorem Memory.wrap_of_lt {a : Nat} (h : a < 4096) : Memory.wrap a = a := Nat.mod_eq_of_lt h

theorem read_powerOn_aboveFont (font : Vector Byte 80) {a : Nat} (hlo : 80 ≤ a) (hhi : a < 4096) :
    Memory.read (State.powerOn font).mem a = 0#8 := by
  have hout : ∀ k, k < font.toList.length → Memory.wrap a ≠ Memory.wrap (0 + k) := by
    intro k hk
    rw [Vector.length_toList] at hk
    rw [Memory.wrap_of_lt hhi, Memory.wrap_of_lt (by omega)]
    omega
  change Memory.read (Memory.writeBytes [] 0 font.toList) a = 0#8
  rw [Memory.read_writeBytes_other _ _ _ _ hout, Memory.read_nil, Memory.wrap_of_lt hhi, Memory.initByte,
    if_neg (by simpa)]

/-- Settles O50: R27's values at power-on with any font, and after `reset()` from any state. -/
theorem powerOnAndResetValues : Obligations.PowerOnAndResetValues := by
  refine ⟨fun font => ⟨hasResetValues_reset_with _ 0, read_powerOn_font font, fun a => read_powerOn_aboveFont font⟩,
    fun s => ⟨hasResetValues_reset_with _ _, fun a ha => ?_, fun a hlo hhi => ?_⟩⟩
  · rw [State.resetCall_mem, Memory.read_clearAboveFont, Memory.wrap_of_lt (by omega), if_pos ha]
  · rw [State.resetCall_mem, Memory.read_clearAboveFont, Memory.wrap_of_lt hhi, if_neg (by simpa)]

end Sys2Proof.Machine
end

section
/-! Memory in canonical form and the bytes it stands for: what a step does to the list, when two lists are the same
data, and that a store is seen by the next fetch (20_memory.md R40, R42, R51; log 8). -/

namespace Sys2Proof.Machine

/-! ## The canonical form is kept by every step -/

theorem State.pushThen_setPC_mem (s : State) (w target : Word) :
    (s.pushThen w fun t => t.setPC target).mem = s.mem := by
  rcases s.pushThen_cases w (fun t => t.setPC target) with ⟨_, h⟩ | ⟨_, h⟩ <;> rw [h] <;> rfl

theorem State.popThen_setPC_mem (s : State) : (s.popThen fun w t => t.setPC w).mem = s.mem := by
  rcases s.popThen_cases (fun w t => t.setPC w) with ⟨_, h⟩ | ⟨_, h⟩ <;> rw [h] <;> rfl

theorem execLdVxK_mem {x : Reg} {s t : State} (h : exec (.ldVxK x) s = .next t) : t.mem = s.mem := by
  rcases execLdVxK_cases x s with ⟨-, he⟩ | ⟨_, -, -, he⟩ <;> cases h.symm.trans he <;> rfl

/-- Everything an instruction can do to memory as data: leave the list alone, or store bytes at `I` (only `Fx33` and
`Fx55` do). -/
theorem exec_mem_cases {i : Instr} {s t : State} (h : exec i s = .next t) :
    t.mem = s.mem ∨ ∃ bs, t = s.writeAtIndex bs := by
  cases i with
  | ldBVx | ldMemVx => cases h; exact .inr ⟨_, rfl⟩
  | ret => cases h; exact .inl s.popThen_setPC_mem
  | call => cases h; exact .inl (s.pushThen_setPC_mem _ _)
  | seImm | sneImm | seReg | sneReg | skp | sknp => cases h; exact .inl (s.skipIf_mem _)
  | ldVxK => exact .inl (execLdVxK_mem h)
  | _ => cases h; exact .inl rfl

theorem State.Inv.of_mem_eq {s t : State} (hs : s.Inv) (h : t.mem = s.mem) : t.Inv := by
  rw [State.Inv, h]
  exact hs

theorem State.Inv.writeAtIndex {s : State} (hs : s.Inv) (bs : List Byte) : (s.writeAtIndex bs).Inv :=
  Memory.wf_writeBytes bs s.index.toNat hs

theorem exec_keeps_inv {i : Instr} {s t : State} (hs : s.Inv) (h : exec i s = .next t) : t.Inv := by
  rcases exec_mem_cases h with hmem | ⟨bs, rfl⟩
  · exact hs.of_mem_eq hmem
  · exact hs.writeAtIndex bs

/-- Settles O57: a step is an instruction from `npc`, and its one possible store keeps the canonical form. -/
theorem stepKeepsCanonicalMemory : Obligations.StepKeepsCanonicalMemory :=
  fun s _ hs h => exec_keeps_inv (hs.of_mem_eq s.advance_mem) h

/-! ## A canonical list is determined by its bytes -/

/-- Below the addresses it lists, a canonical memory reads as at power-on. -/
theorem Memory.lookup_below {m : Memory} {lo a : Nat} (hm : Memory.wfFrom lo m = true) (ha : a < lo) :
    Memory.lookup m a = Memory.initByte a := by
  induction m generalizing lo with
  | nil => rfl
  | cons e rest ih =>
    obtain ⟨k, b⟩ := e
    obtain ⟨hlo, -, -, hrest⟩ := Memory.wfFrom_cons.1 hm
    rw [Memory.lookup, if_neg (by omega), ih hrest (by omega)]

/-- The first listed address of a canonical memory is not below the addresses of another that reads the same: the other
would read the power-on byte there. -/
theorem Memory.head_not_below {lo lo' k : Nat} {b : Byte} {rest m' : Memory}
    (hm : Memory.wfFrom lo ((k, b) :: rest) = true) (hm' : Memory.wfFrom lo' m' = true)
    (hsame : ∀ a, a < Config.memSize → Memory.lookup ((k, b) :: rest) a = Memory.lookup m' a) : lo' ≤ k := by
  obtain ⟨-, hk, hb, -⟩ := Memory.wfFrom_cons.1 hm
  by_contra hlt
  have hread := hsame k hk
  rw [Memory.lookup, if_pos rfl, Memory.lookup_below hm' (by omega)] at hread
  exact hb hread

/-- Two canonical memories with the same first entry read the same after it as well. -/
theorem Memory.lookup_tail_eq {k : Nat} {b : Byte} {rest rest' : Memory}
    (hrest : Memory.wfFrom (k + 1) rest = true) (hrest' : Memory.wfFrom (k + 1) rest' = true)
    (hsame : ∀ a, a < Config.memSize → Memory.lookup ((k, b) :: rest) a = Memory.lookup ((k, b) :: rest') a) :
    ∀ a, a < Config.memSize → Memory.lookup rest a = Memory.lookup rest' a := by
  intro a ha
  by_cases hk : k = a
  · rw [Memory.lookup_below hrest (by omega), Memory.lookup_below hrest' (by omega)]
  · simpa only [Memory.lookup, if_neg hk] using hsame a ha

theorem Memory.wfFrom_ext {m m' : Memory} {lo lo' : Nat} (hm : Memory.wfFrom lo m = true)
    (hm' : Memory.wfFrom lo' m' = true)
    (hsame : ∀ a, a < Config.memSize → Memory.lookup m a = Memory.lookup m' a) : m = m' := by
  induction m generalizing lo lo' m' with
  | nil =>
    cases m' with
    | nil => rfl
    | cons e' rest' =>
      have : e'.1 + 1 ≤ e'.1 := Memory.head_not_below (m' := []) hm' rfl fun a ha => (hsame a ha).symm
      omega
  | cons e rest ih =>
    obtain ⟨k, b⟩ := e
    cases m' with
    | nil =>
      have : k + 1 ≤ k := Memory.head_not_below (m' := []) hm rfl hsame
      omega
    | cons e' rest' =>
      obtain ⟨k', b'⟩ := e'
      obtain ⟨-, hk, hb, hrest⟩ := Memory.wfFrom_cons.1 hm
      obtain ⟨-, hk', hb', hrest'⟩ := Memory.wfFrom_cons.1 hm'
      have hle : k' ≤ k :=
        Memory.head_not_below hm (Memory.wfFrom_cons.2 ⟨le_refl k', hk', hb', hrest'⟩) hsame
      have hge : k ≤ k' :=
        Memory.head_not_below hm' (Memory.wfFrom_cons.2 ⟨le_refl k, hk, hb, hrest⟩) fun a ha => (hsame a ha).symm
      obtain rfl : k = k' := le_antisymm hge hle
      obtain rfl : b = b' := by simpa [Memory.lookup] using hsame k hk
      rw [ih hrest hrest' (Memory.lookup_tail_eq hrest hrest' hsame)]

/-- Settles O25: entry by entry, from the least listed address up. -/
theorem canonicalMemoryIsItsBytes : Obligations.CanonicalMemoryIsItsBytes := by
  intro m m' hm hm' hsame
  refine Memory.wfFrom_ext hm hm' fun a ha => ?_
  have hread := hsame a ha
  rwa [Memory.read, Memory.read, Memory.wrap_of_lt ha] at hread

/-! ## A store is seen by the next fetch (20_memory.md R51) -/

theorem wordOfBytes_toNat (hi lo : Byte) : (wordOfBytes hi lo).toNat = hi.toNat * 256 + lo.toNat := by
  rw [wordOfBytes, BitVec.toNat_append, ← Nat.shiftLeft_add_eq_or_of_lt lo.isLt, Nat.shiftLeft_eq]

/-- An access sees its start address only modulo 4096 (20_memory.md R41). -/
theorem Memory.read_add_congr (m : Memory) {a c : Nat} (h : Memory.wrap a = Memory.wrap c) (k : Nat) :
    Memory.read m (a + k) = Memory.read m (c + k) :=
  congrArg (Memory.lookup m) (Nat.ModEq.add_right k h)

theorem Memory.readWord_congr (m : Memory) {a c : Nat} (h : Memory.wrap a = Memory.wrap c) :
    Memory.readWord m a = Memory.readWord m c := by
  rw [Memory.readWord, Memory.readWord, Memory.read_add_congr m h 1]
  exact congrArg (wordOfBytes · _) (Memory.read_add_congr m h 0)

/-- After `Fx55`, address `I + r` holds `V[r]` for every register stored (43_index_memory.md R144). -/
theorem read_execLdMemVx {x : Reg} {s t : State} (h : exec (.ldMemVx x) s = .next t) {r : Reg} (hr : r ≤ x) :
    Memory.read t.mem (s.index.toNat + r.val) = s.readV r := by
  cases h
  have hlen := s.regsUpTo_length x
  rw [State.read_writeAtIndex_same _ _ r.val (hlen.trans_le (Nat.le_trans x.isLt (by decide)))
    (hlen ▸ Nat.lt_succ_of_le hr), State.regsUpTo_get]

/-- Settles O24: the fetch reads at `I`, where the store has just put `V[0]` and `V[1]`. -/
theorem storeIsSeenByNextFetch : Obligations.StoreIsSeenByNextFetch := by
  intro x s t hx hwrap h
  have hpc : s.pc = t.pc := (exec_changesOnly h).pc id
  have h0 : Memory.read t.mem s.index.toNat = s.readV 0 := read_execLdMemVx h (Fin.zero_le x)
  have h1 : Memory.read t.mem (s.index.toNat + 1) = s.readV 1 := read_execLdMemVx h (r := 1) hx
  rw [State.fetch, ← hpc, ← Memory.readWord_congr t.mem hwrap, Memory.readWord, wordOfBytes_toNat, h0, h1]

end Sys2Proof.Machine
end

section
/-! Decoding and encoding are inverse to each other, and what the opcode table says of each word
(30_encoding.md R63 to R68). -/

namespace Sys2Proof

/-! ## The primary dispatch on `op` (R63) -/

/-- The values of `op` that do not select a row by themselves. -/
def secondaryOps : List Nibble := [0x0#4, 0x8#4, 0xE#4, 0xF#4]

section Dispatch

variable {w : Word}

theorem decode_of_op0 (h : fieldOp w = 0x0#4) : decode w = decode0 w := by simp [decode, h]

theorem decode_of_op8 (h : fieldOp w = 0x8#4) : decode w = decode8 w := by simp [decode, h]

theorem decode_of_opE (h : fieldOp w = 0xE#4) : decode w = decodeE w := by simp [decode, h]

theorem decode_of_opF (h : fieldOp w = 0xF#4) : decode w = decodeF w := by simp [decode, h]

/-- The four secondary dispatches, or a row that `op` alone selects. -/
theorem op_cases (op : Nibble) : op = 0x0#4 ∨ op = 0x8#4 ∨ op = 0xE#4 ∨ op = 0xF#4 ∨ op ∉ secondaryOps := by
  revert op
  decide

/-! ## A word from the fields its row fixes -/

theorem encodeNNN_of_fields {op : Nibble} (hop : fieldOp w = op) : encodeNNN op (fieldNNN w) = w :=
  hop ▸ encodeNNN_fields w

theorem encodeXKK_of_fields {op : Nibble} {kk : Byte} (hop : fieldOp w = op) (hkk : fieldKK w = kk) :
    encodeXKK op (fieldX w) kk = w :=
  hop ▸ hkk ▸ encodeXKK_fields w

theorem encodeXYN_of_fields {op n : Nibble} (hop : fieldOp w = op) (hn : fieldN w = n) :
    encodeXYN op (fieldX w) (fieldY w) n = w :=
  hop ▸ hn ▸ encodeXYN_fields w

/-! ## Encoding what was decoded -/

theorem encode_ite {c : Prop} [Decidable c] {i j : Instr} (hi : c → encode i = w) (hj : ¬ c → encode j = w) :
    encode (if c then i else j) = w :=
  iteInduction (motive := fun i => encode i = w) hi hj

theorem encode_decode0 (w : Word) : encode (decode0 w) = w :=
  encode_ite Eq.symm fun _ => encode_ite Eq.symm fun _ => rfl

theorem encode_decode8 (hop : fieldOp w = 0x8#4) : encode (decode8 w) = w := by
  unfold decode8
  iterate 9 refine encode_ite (encodeXYN_of_fields hop) fun _ => ?_
  rfl

theorem encode_decodeE (hop : fieldOp w = 0xE#4) : encode (decodeE w) = w := by
  unfold decodeE
  iterate 2 refine encode_ite (encodeXKK_of_fields hop) fun _ => ?_
  rfl

theorem encode_decodeF (hop : fieldOp w = 0xF#4) : encode (decodeF w) = w := by
  unfold decodeF
  iterate 9 refine encode_ite (encodeXKK_of_fields hop) fun _ => ?_
  rfl

theorem encode_decode (w : Word) : encode (decode w) = w := by
  unfold decode
  refine encode_ite (fun _ => encode_decode0 w) fun _ => ?_
  iterate 2 refine encode_ite encodeNNN_of_fields fun _ => ?_
  iterate 2 refine encode_ite (encodeXKK_of_fields · rfl) fun _ => ?_
  refine encode_ite (encodeXYN_of_fields · rfl) fun _ => ?_
  iterate 2 refine encode_ite (encodeXKK_of_fields · rfl) fun _ => ?_
  refine encode_ite encode_decode8 fun _ => ?_
  refine encode_ite (encodeXYN_of_fields · rfl) fun _ => ?_
  iterate 2 refine encode_ite encodeNNN_of_fields fun _ => ?_
  refine encode_ite (encodeXKK_of_fields · rfl) fun _ => ?_
  refine encode_ite (encodeXYN_of_fields · rfl) fun _ => ?_
  refine encode_ite encode_decodeE fun _ => ?_
  -- No test is left, so `op` is `F`.
  exact encode_decodeF (by bv_omega)

/-! ## The unrecognised words (R67) -/

theorem unrecognised_of_op0 (h : fieldOp w = 0x0#4) : unrecognised w = (w != 0x00E0#16 && w != 0x00EE#16) := by
  have hop : w.toNat / 4096 = 0 := by rw [← fieldOp_toNat, h]; rfl
  simp [unrecognised, hop, bne, BitVec.toNat_eq, beq_eq_decide]

theorem unrecognised_of_op8 (h : fieldOp w = 0x8#4) :
    unrecognised w = [0x8, 0x9, 0xA, 0xB, 0xC, 0xD, 0xF].contains (fieldN w).toNat := by
  simp only [unrecognised, ← fieldOp_toNat, ← fieldN_toNat, h]
  rfl

theorem unrecognised_of_opE (h : fieldOp w = 0xE#4) :
    unrecognised w = ((fieldKK w).toNat != 0x9E && (fieldKK w).toNat != 0xA1) := by
  simp only [unrecognised, ← fieldOp_toNat, ← fieldKK_toNat, h]
  rfl

theorem unrecognised_of_opF (h : fieldOp w = 0xF#4) :
    unrecognised w = !([0x07, 0x0A, 0x15, 0x18, 0x1E, 0x29, 0x33, 0x55, 0x65].contains (fieldKK w).toNat) := by
  simp only [unrecognised, ← fieldOp_toNat, ← fieldKK_toNat, h]
  rfl

theorem unrecognised_of_notMem (h : fieldOp w ∉ secondaryOps) : unrecognised w = false := by
  simp_all [unrecognised, secondaryOps, ← fieldOp_toNat, BitVec.toNat_eq]

/-! ## A word decodes as unrecognised exactly when it is in one of R67's sets -/

/-- A dispatch that can still end in a row misses it when the test fails. -/
theorem ite_eq_nopU_iff {c : Prop} [Decidable c] {i j : Instr} (hi : i ≠ .nopU w) :
    (if c then i else j) = .nopU w ↔ ¬ c ∧ j = .nopU w := by
  split <;> simp [*]

theorem decode0_eq_nopU_iff (hop : fieldOp w = 0x0#4) : decode0 w = .nopU w ↔ unrecognised w = true := by
  rw [unrecognised_of_op0 hop]
  simp [decode0, ite_eq_nopU_iff]

theorem decode8_eq_nopU_iff (hop : fieldOp w = 0x8#4) : decode8 w = .nopU w ↔ unrecognised w = true := by
  rw [unrecognised_of_op8 hop]
  simp only [decode8, ite_eq_nopU_iff, ne_eq, reduceCtorEq, not_false_eq_true, and_true]
  generalize fieldN w = n
  revert n
  decide

theorem decodeE_eq_nopU_iff (hop : fieldOp w = 0xE#4) : decodeE w = .nopU w ↔ unrecognised w = true := by
  rw [unrecognised_of_opE hop]
  simp [decodeE, ite_eq_nopU_iff, BitVec.toNat_eq]

theorem decodeF_eq_nopU_iff (hop : fieldOp w = 0xF#4) : decodeF w = .nopU w ↔ unrecognised w = true := by
  rw [unrecognised_of_opF hop]
  simp [decodeF, ite_eq_nopU_iff, BitVec.toNat_eq]

theorem decode_ne_nopU_of_notMem (hop : fieldOp w ∉ secondaryOps) : decode w ≠ .nopU w := by
  obtain ⟨h0, h8, hE, hF⟩ : fieldOp w ≠ 0x0#4 ∧ fieldOp w ≠ 0x8#4 ∧ fieldOp w ≠ 0xE#4 ∧ fieldOp w ≠ 0xF#4 := by
    simpa [secondaryOps] using hop
  simp only [decode, h0, h8, hE, if_false, ne_eq, ite_eq_nopU_iff, reduceCtorEq, not_false_eq_true]
  intro h
  exact hF (by bv_omega)

theorem decode_eq_nopU_iff (w : Word) : decode w = .nopU w ↔ unrecognised w = true := by
  rcases op_cases (fieldOp w) with hop | hop | hop | hop | hop
  · rw [decode_of_op0 hop, decode0_eq_nopU_iff hop]
  · rw [decode_of_op8 hop, decode8_eq_nopU_iff hop]
  · rw [decode_of_opE hop, decodeE_eq_nopU_iff hop]
  · rw [decode_of_opF hop, decodeF_eq_nopU_iff hop]
  · simp [decode_ne_nopU_of_notMem hop, unrecognised_of_notMem hop]

/-- An unrecognised word is kept whole. -/
theorem eq_of_decode_eq_nopU {v : Word} (h : decode w = .nopU v) : v = w := by
  simpa [h, encode] using encode_decode w

theorem wellFormed_decode (w : Word) : (decode w).wellFormed = true := by
  cases h : decode w with
  | nopU v =>
    obtain rfl := eq_of_decode_eq_nopU h
    exact (decode_eq_nopU_iff v).1 h
  | _ => rfl

/-! ## Decoding what was encoded -/

theorem decode_encode {i : Instr} (hi : i.wellFormed = true) : decode (encode i) = i := by
  cases i with
  | nopU w => exact (decode_eq_nopU_iff w).2 hi
  | cls | ret => rfl
  | jp | call | ldI | jpV0 | seImm | sneImm | ldImm | addImm | rnd | seReg | sneReg | drw => simp [encode, decode]
  | ldReg | orReg | andReg | xorReg | addReg | subReg | shr | subnReg | shl =>
    simp [encode, decode_of_op8, decode8]
  | skp | sknp => simp [encode, decode_of_opE, decodeE]
  | ldVxDT | ldVxK | ldDTVx | ldSTVx | addIVx | ldFVx | ldBVx | ldMemVx | ldVxMem =>
    simp [encode, decode_of_opF, decodeF]

/-- A word is its high byte followed by its low byte (20_memory.md R46). -/
theorem wordOfBytes_bytes (w : Word) : wordOfBytes (w.extractLsb' 8 8) (w.extractLsb' 0 8) = w :=
  (BitVec.extractLsb'_append_extractLsb'_eq_extractLsb' rfl).trans BitVec.extractLsb'_eq_self

theorem decodeBytes_encodeBytes (i : Instr) (rest : List Byte) :
    decodeBytes (encodeBytes i ++ rest) = .ok (decode (encode i), rest) := by
  rw [← wordOfBytes_bytes (encode i)]
  simp [encodeBytes, decodeBytes, wordOfBytes_bytes]

/-! ## The rows of the opcode table (R64, R65) -/

/-- Words that agree in the fields of their dispatch decode to instructions of one row. -/
theorem opcodeRow_decode_congr {p : Word} (hop : fieldOp w = fieldOp p) (h0 : fieldOp p = 0x0#4 → w = p)
    (h8 : fieldOp p = 0x8#4 → fieldN w = fieldN p) (hE : fieldOp p = 0xE#4 → fieldKK w = fieldKK p)
    (hF : fieldOp p = 0xF#4 → fieldKK w = fieldKK p) : opcodeRow (decode w) = opcodeRow (decode p) := by
  simp only [decode, hop, apply_ite opcodeRow]
  refine ite_congr rfl (fun h => by rw [h0 h]) fun _ => ?_
  iterate 7 refine ite_congr rfl (fun _ => rfl) fun _ => ?_
  refine ite_congr rfl (fun h => ?_) fun _ => ?_
  · simp only [decode8, h8 h, apply_ite opcodeRow]
    rfl
  iterate 5 refine ite_congr rfl (fun _ => rfl) fun _ => ?_
  refine ite_congr rfl (fun h => ?_) fun _ => ?_
  · simp only [decodeE, hE h, apply_ite opcodeRow]
    rfl
  · simp only [decodeF, hF (by bv_omega), apply_ite opcodeRow]
    rfl

/-- A row's mask keeps the fields that its dispatch reads (R63). -/
theorem mask_of_mem_opcodeTable : ∀ r ∈ opcodeTable,
    r.mask = 0xFFFF#16 ∨ r.mask = 0xF000#16 ∧ fieldOp r.pattern ∉ secondaryOps ∨
    r.mask = 0xF00F#16 ∧ fieldOp r.pattern = 0x8#4 ∨
    r.mask = 0xF0FF#16 ∧ fieldOp r.pattern ∈ [0xE#4, 0xF#4] := by decide

theorem opcodeRow_decode_pattern : ∀ r ∈ opcodeTable, opcodeRow (decode r.pattern) = r := by decide

theorem fieldOp_mask_op (w : Word) : fieldOp (w &&& 0xF000#16) = fieldOp w := by
  rw [mask_op, fieldOp_encodeNNN]

theorem fieldOp_mask_op_n (w : Word) : fieldOp (w &&& 0xF00F#16) = fieldOp w := by
  rw [mask_op_n, fieldOp_encodeXYN]

theorem fieldN_mask_op_n (w : Word) : fieldN (w &&& 0xF00F#16) = fieldN w := by
  rw [mask_op_n, fieldN_encodeXYN]

theorem fieldOp_mask_op_kk (w : Word) : fieldOp (w &&& 0xF0FF#16) = fieldOp w := by
  rw [mask_op_kk, fieldOp_encodeXKK]

theorem fieldKK_mask_op_kk (w : Word) : fieldKK (w &&& 0xF0FF#16) = fieldKK w := by
  rw [mask_op_kk, fieldKK_encodeXKK]

/-- A word that matches a row of the table decodes to an instruction of that row. -/
theorem opcodeRow_decode_of_rowMatches {r : OpcodeRow} (hr : r ∈ opcodeTable) (h : rowMatches r w = true) :
    opcodeRow (decode w) = r := by
  rw [rowMatches_iff] at h
  have hmask := mask_of_mem_opcodeTable r hr
  refine Eq.trans ?_ (opcodeRow_decode_pattern r hr)
  rw [← h] at hmask ⊢
  rcases hmask with hm | ⟨hm, hp⟩ | ⟨hm, hp⟩ | ⟨hm, hp⟩
  · rw [hm, mask_all]
  · rw [hm] at hp ⊢
    refine opcodeRow_decode_congr (fieldOp_mask_op w).symm ?_ ?_ ?_ ?_ <;> intro hop <;>
      simp [secondaryOps, hop] at hp
  · rw [hm] at hp ⊢
    have hn := (fieldN_mask_op_n w).symm
    refine opcodeRow_decode_congr (fieldOp_mask_op_n w).symm ?_ (fun _ => hn) ?_ ?_ <;> simp [hp]
  · rw [hm] at hp ⊢
    have hkk := (fieldKK_mask_op_kk w).symm
    refine opcodeRow_decode_congr (fieldOp_mask_op_kk w).symm ?_ ?_ (fun _ => hkk) (fun _ => hkk) <;> intro hop <;>
      simp [hop] at hp

/-- The table holds the row of every instruction but `NOP.u`. -/
theorem opcodeRow_mem_opcodeTable_iff (i : Instr) : opcodeRow i ∈ opcodeTable ↔ ∀ w, i ≠ .nopU w := by
  cases i <;> simp [opcodeRow, opcodeTable]

open Laws.EncodeRow in
theorem rowMatches_opcodeRow_encode (i : Instr) : rowMatches (opcodeRow i) (encode i) = true :=
  show Statement i from
  i.casesOn cls ret jp call seImm sneImm seReg ldImm addImm ldReg orReg andReg xorReg addReg subReg shr subnReg shl
    sneReg ldI jpV0 rnd drw skp sknp ldVxDT ldVxK ldDTVx ldSTVx addIVx ldFVx ldBVx ldMemVx ldVxMem nopU

theorem rowMatches_opcodeRow_decode (w : Word) : rowMatches (opcodeRow (decode w)) w = true := by
  have h := rowMatches_opcodeRow_encode (decode w)
  rwa [encode_decode] at h

theorem decode_eq_nopU_iff_noRow (w : Word) : decode w = .nopU w ↔ ∀ r ∈ opcodeTable, rowMatches r w = false := by
  constructor
  · intro hw r hr
    rw [Bool.eq_false_iff]
    intro hmatch
    have hmem : opcodeRow (decode w) ∈ opcodeTable := (opcodeRow_decode_of_rowMatches hr hmatch).symm ▸ hr
    exact (opcodeRow_mem_opcodeTable_iff _).1 hmem w hw
  · intro hnone
    by_contra hw
    have hmem : opcodeRow (decode w) ∈ opcodeTable :=
      (opcodeRow_mem_opcodeTable_iff _).2 fun v hv => hw (eq_of_decode_eq_nopU hv ▸ hv)
    exact Bool.eq_false_iff.1 (hnone _ hmem) (rowMatches_opcodeRow_decode w)

end Dispatch

/-! ## The statements -/

/-- Settles O37: the fields of an assembled word lead each dispatch back to the row it was assembled from. -/
theorem decodeOfEncode : Obligations.DecodeOfEncode := by
  intro i hi
  refine ⟨decode_encode hi, fun rest => ?_⟩
  rw [decodeBytes_encodeBytes, decode_encode hi]

/-- Settles O38: each dispatch keeps every field of the word, and a `nopU` comes from one of R67's sets alone. -/
theorem encodeOfDecode : Obligations.EncodeOfDecode := fun w => ⟨encode_decode w, wellFormed_decode w⟩

/-- Settles O39: R67's sets are the misses of the dispatches, and a word that misses every dispatch is in no row. -/
theorem unrecognisedWordsExactly : Obligations.UnrecognisedWordsExactly := fun w =>
  ⟨decode_eq_nopU_iff w, (decode_eq_nopU_iff w).symm.trans (decode_eq_nopU_iff_noRow w)⟩

/-- Settles O40: two rows that a word matches are both the row of the instruction it decodes to. -/
theorem opcodeRowsDisjoint : Obligations.OpcodeRowsDisjoint := by
  refine ⟨rowMatches_opcodeRow_decode, List.Pairwise.imp_of_mem ?_ (show opcodeTable.Nodup by decide)⟩
  rintro r r' hr hr' hne w ⟨h, h'⟩
  exact hne ((opcodeRow_decode_of_rowMatches hr h).symm.trans (opcodeRow_decode_of_rowMatches hr' h'))

/-- Settles O36: nine closed words, read by the decoder. -/
theorem sampleWordsDecode : Obligations.SampleWordsDecode := by
  unfold Obligations.SampleWordsDecode
  decide

end Sys2Proof
end

section
/-! The step (30_encoding.md R61, R66). -/

namespace Sys2Proof.Machine

/-- No meaning stops the machine: the key wait goes back to itself, and a stack fault is recorded in `ERR`. -/
theorem exec_completes (i : Instr) (s : State) : ∃ t, exec i s = .next t := by
  cases i with
  | ldVxK x =>
    rcases execLdVxK_cases x s with ⟨-, h⟩ | ⟨_, -, -, h⟩ <;> exact ⟨_, h⟩
  | _ => exact ⟨_, rfl⟩

/-- Settles O42: a step is an instruction from `npc`. -/
theorem stepAlwaysCompletes : Obligations.StepAlwaysCompletes := fun s => exec_completes _ s.advance

theorem step_of_unrecognised {s : State} (h : unrecognised s.fetch = true) : step s = .next s.advance := by
  rw [step, (decode_eq_nopU_iff _).2 h]
  rfl

/-- Settles O35: an unrecognised word decodes to `NOP.u`, so the advance of `PC` is all that its step does. -/
theorem unrecognisedWordIsNoOp : Obligations.UnrecognisedWordIsNoOp := by
  refine ⟨fun _ _ => rfl, fun s h => ⟨s.advance, step_of_unrecognised h, ?_, changesOnly_setPC s _⟩⟩
  rw [State.advance_pc, BitVec.toNat_add]
  rfl

/-- Settles O41: the fetch reads the same two bytes. -/
theorem stepRunsDecodedInstruction : Obligations.StepRunsDecodedInstruction := by
  intro s i rest h
  cases h
  rfl

end Sys2Proof.Machine
end

section
/-! Control transfer (40_flow.md): return, jump, call and indexed jump.  A stack slot is named by a `Fin 16`, the slot
that a call at depth `k` fills and a return at depth `k + 1` pops. -/

namespace Sys2Proof.Machine

/-! ## What a return and a call do at each stack depth (R100, R102) -/

theorem exec_ret_empty {s : State} (h : s.sp.val = 0) : exec .ret s = .next (s.raise .stackUnderflow) :=
  congrArg Host.Outcome.next (s.popThen_empty _ h)

theorem exec_ret_live {s : State} {k : Fin 16} (hk : k.val + 1 = s.sp.val) :
    exec .ret s = .next ({ s with sp := k.castSucc }.setPC s.stack[k]) := by
  have hpop := s.popThen_live (fun w t => t.setPC w) (hk ▸ k.val.succ_pos)
  simp only [← hk, Nat.add_sub_cancel] at hpop
  exact congrArg Host.Outcome.next hpop

theorem exec_call_full {s : State} (nnn : Imm12) (h : s.sp.val = 16) :
    exec (.call nnn) s = .next (s.raise .stackOverflow) :=
  congrArg Host.Outcome.next (s.pushThen_full _ _ h)

theorem exec_call_room {s : State} (nnn : Imm12) {k : Fin 16} (hk : k.val = s.sp.val) :
    exec (.call nnn) s =
      .next ({ s with stack := s.stack.set k.val s.pc, sp := k.succ }.setPC (target12 nnn)) := by
  have hpush := s.pushThen_room s.pc (fun t => t.setPC (target12 nnn)) (hk ▸ k.isLt)
  simp only [← hk] at hpush
  exact congrArg Host.Outcome.next hpush

/-! ## The write table at each stack depth (10_state.md R23) -/

theorem writeSet_ret_live {s : State} {k : Fin 16} (hk : k.val + 1 = s.sp.val) :
    writeSet .ret s = { sp := True, pc := True } := by
  rw [writeSet, if_neg (hk ▸ k.val.succ_ne_zero)]

theorem writeSet_call_room {s : State} (nnn : Imm12) {k : Fin 16} (hk : k.val = s.sp.val) :
    writeSet (.call nnn) s = { slots := fun j => j = k, sp := True, pc := True } := by
  rw [writeSet, if_neg (hk ▸ k.isLt.ne)]
  simp only [← hk, Fin.ext_iff]

/-! ## The statements -/

/-- Settles O1: the pop at each depth, with the frame of `00EE`'s row of the write table. -/
theorem returnPopsOrRecordsUnderflow : Obligations.ReturnPopsOrRecordsUnderflow := by
  refine ⟨rfl, fun s => ?_⟩
  obtain ⟨t, h⟩ := exec_completes .ret s
  have hframe := exec_changesOnly h
  refine ⟨t, h, fun hempty => ?_, fun k hk => ?_⟩
  · rw [writeSet, if_pos hempty] at hframe
    cases h.symm.trans (exec_ret_empty hempty)
    exact ⟨by simp [errBit], hframe⟩
  · rw [writeSet_ret_live hk] at hframe
    cases h.symm.trans (exec_ret_live hk)
    exact ⟨rfl, rfl, hframe⟩

/-- Settles O3: the push at each depth, with the frame of `2nnn`'s row of the write table. -/
theorem callPushesOrRecordsOverflow : Obligations.CallPushesOrRecordsOverflow := by
  refine fun nnn s => ⟨decode_encode (i := .call nnn) rfl, ?_⟩
  obtain ⟨t, h⟩ := exec_completes (.call nnn) s
  have hframe := exec_changesOnly h
  refine ⟨t, h, fun hfull => ?_, fun k hk => ?_⟩
  · rw [writeSet, if_pos hfull] at hframe
    cases h.symm.trans (exec_call_full nnn hfull)
    exact ⟨by simp [errBit], hframe⟩
  · rw [writeSet_call_room nnn hk] at hframe
    cases h.symm.trans (exec_call_room nnn hk)
    exact ⟨by simp, rfl, target12_toNat nnn, hframe⟩

/-- A step whose fetched word is an instruction's encoding runs that instruction from `npc` (30_encoding.md R61). -/
theorem step_of_fetch_encode {s : State} {i : Instr} (hi : i.wellFormed = true) (h : s.fetch = encode i) :
    step s = exec i s.advance := by
  rw [step, h, decode_encode hi]

/-- Settles O48: the return pops the slot `k` that the call filled, and the slots below `k` are untouched. -/
theorem callThenReturn : Obligations.CallThenReturn := by
  intro s t u nnn hcall hroom hst hret htu
  let k : Fin 16 := ⟨s.sp.val, hroom⟩
  have hpush : step s = _ :=
    (step_of_fetch_encode (i := .call nnn) rfl hcall).trans (exec_call_room (s := s.advance) nnn (k := k) rfl)
  cases hst.symm.trans hpush
  have hpop := (step_of_fetch_encode (i := .ret) rfl hret).trans (exec_ret_live (k := k) rfl)
  cases htu.symm.trans hpop
  refine ⟨by simp, rfl, fun j hj => ?_⟩
  have hne : k.val ≠ j.val := hj.ne'
  simp [hne]

/-- Settles O2: the target is the zero-extended immediate. -/
theorem jumpSetsPC : Obligations.JumpSetsPC := fun nnn s =>
  ⟨decode_encode (i := .jp nnn) rfl, _, rfl, target12_toNat nnn, changesOnly_setPC s _⟩

/-- Settles O4: the largest sum, 0xFFF + 0xFF, fits in 16 bits. -/
theorem indexedJumpAddsV0 : Obligations.IndexedJumpAddsV0 := fun nnn s =>
  ⟨decode_encode (i := .jpV0 nnn) rfl, _, rfl, jpV0_target_toNat nnn _, changesOnly_setPC s _⟩

end Sys2Proof.Machine
end

section
/-! Conditional skips on registers (41_skip.md). -/

namespace Sys2Proof.Machine

/-- Where a skip on the condition `p` leaves `PC`: on by 2 modulo 65536, or where it was (41_skip.md). -/
theorem skipIf_pc_toNat (s : State) {c : Bool} {p : Prop} [Decidable p] (hc : c = true ↔ p) :
    (s.skipIf c).pc.toNat = if p then (s.pc.toNat + 2) % 65536 else s.pc.toNat := by
  by_cases hp : p
  · simp [hc.2 hp, hp]
  · simp [Bool.eq_false_iff.2 (mt hc.1 hp), hp]

/-- Settles O5: each effect is a `skipIf` on the comparison with the immediate. -/
theorem skipOnImmediate : Obligations.SkipOnImmediate := fun x kk s =>
  ⟨decode_encode (i := .seImm x kk) rfl, decode_encode (i := .sneImm x kk) rfl,
    ⟨_, rfl, changesOnly_skipIf s _, skipIf_pc_toNat s decide_eq_true_iff⟩,
    _, rfl, changesOnly_skipIf s _, skipIf_pc_toNat s decide_eq_true_iff⟩

/-- Settles O6: the decoder keeps `n`, and each effect is a `skipIf` on the two registers alone. -/
theorem skipOnRegisters : Obligations.SkipOnRegisters := fun x y n s =>
  ⟨decode_encode (i := .seReg x y n) rfl, decode_encode (i := .sneReg x y n) rfl,
    ⟨_, rfl, changesOnly_skipIf s _, skipIf_pc_toNat s decide_eq_true_iff⟩,
    _, rfl, changesOnly_skipIf s _, skipIf_pc_toNat s decide_eq_true_iff⟩

end Sys2Proof.Machine
end

section
/-! Register loads, arithmetic, logic, shifts and random (42_alu.md). -/

namespace Sys2Proof.Machine

/-! ## What a register write and a flagged write leave in their registers (R120) -/

theorem State.readV_writeV_same (s : State) (x : Reg) (b : Byte) : (s.writeV x b).readV x = b := by simp

theorem State.readV_writeWithFlag_flag (s : State) (x : Reg) (b f : Byte) :
    (s.writeWithFlag x b f).readV regVF = f := by simp

theorem State.readV_writeWithFlag_dest (s : State) {x : Reg} (hx : x ≠ regVF) (b f : Byte) :
    (s.writeWithFlag x b f).readV x = b := by simp [hx]

/-- What a flag-writing instruction leaves, told by what its flag and its result are: the flag is the last write, so it
stands in `VF` for every `x`.  `value` is the number the result is read as, a natural or an integer. -/
theorem writeWithFlag_leaves {α : Type} (s : State) (x : Reg) {b f : Byte} {n : Nat} (value : Byte → α) {r : α}
    (hflag : f.toNat = n) (hresult : value b = r) :
    ((s.writeWithFlag x b f).readV regVF).toNat = n ∧
      (x ≠ regVF → value ((s.writeWithFlag x b f).readV x) = r) ∧
      ChangesOnly { regs := fun q => q = x ∨ q = regVF } s (s.writeWithFlag x b f) :=
  ⟨by rw [State.readV_writeWithFlag_flag, hflag],
    fun hx => by rw [State.readV_writeWithFlag_dest s hx, hresult],
    changesOnly_writeWithFlag s x b f⟩

/-! ## The flags as naturals (10_state.md R12) -/

theorem flagByte_toNat (c : Bool) : (flagByte c).toNat = if c then 1 else 0 := by cases c <;> rfl

theorem carryFlag_toNat (a b : Byte) : (carryFlag a b).toNat = if a.toNat + b.toNat > 255 then 1 else 0 := by
  simp only [carryFlag, flagByte_toNat, decide_eq_true_eq, gt_iff_lt]

theorem noBorrowFlag_toNat (a b : Byte) : (noBorrowFlag a b).toNat = if a.toNat ≥ b.toNat then 1 else 0 := by
  simp only [noBorrowFlag, flagByte_toNat, decide_eq_true_eq, ge_iff_le]

theorem lowBitFlag_toNat (a : Byte) : (lowBitFlag a).toNat = a.toNat % 2 := by
  have hbit : a.getLsbD 0 = decide (a.toNat % 2 = 1) := Nat.testBit_zero _
  simp only [lowBitFlag, flagByte_toNat, hbit, decide_eq_true_eq]
  split <;> omega

theorem highBitFlag_toNat (a : Byte) : (highBitFlag a).toNat = a.toNat / 128 := by
  have hbit : a.getLsbD 7 = decide (128 ≤ a.toNat) := BitVec.msb_eq_decide a
  have := a.isLt
  simp only [highBitFlag, flagByte_toNat, hbit, decide_eq_true_eq]
  split <;> omega

/-! ## The 8-bit results as numbers (R128, R130, R131) -/

theorem byte_sub_toNat (a b : Byte) : ((a - b).toNat : Int) = ((a.toNat : Int) - b.toNat) % 256 := by
  have := b.isLt
  rw [BitVec.toNat_sub]
  omega

theorem byte_shiftLeft_one_toNat (a : Byte) : (a <<< 1).toNat = 2 * a.toNat % 256 := by
  rw [BitVec.toNat_shiftLeft, Nat.shiftLeft_eq, Nat.mul_comm]

/-! ## Flag and result together (R133) -/

/-- The carry is the ninth bit of the exact sum. -/
theorem carry_add_toNat (a b : Byte) : 256 * (carryFlag a b).toNat + (a + b).toNat = a.toNat + b.toNat := by
  have := a.isLt
  have := b.isLt
  rw [carryFlag_toNat, BitVec.toNat_add]
  split <;> omega

/-- A borrow is the 256 that the wrapped difference has too much. -/
theorem sub_toNat_noBorrow (a b : Byte) :
    ((a - b).toNat : Int) = a.toNat - b.toNat + 256 * (1 - (noBorrowFlag a b).toNat) := by
  have := a.isLt
  have := b.isLt
  rw [noBorrowFlag_toNat, byte_sub_toNat]
  split <;> omega

/-! ## The statements -/

/-- Settles O17: `V[x]` and `VF` are distinct registers, so result and flag are both there to add up. -/
theorem carryAndBorrowIdentities : Obligations.CarryAndBorrowIdentities := by
  refine fun x y s t hx => ⟨?_, ?_, ?_⟩ <;> rintro ⟨⟩ <;>
    rw [State.readV_writeWithFlag_flag, State.readV_writeWithFlag_dest s hx]
  · exact carry_add_toNat _ _
  · exact sub_toNat_noBorrow _ _
  · exact sub_toNat_noBorrow _ _

/-- Settles O7: the write leaves the immediate. -/
theorem loadImmediate : Obligations.LoadImmediate := fun x kk s =>
  ⟨decode_encode (i := .ldImm x kk) rfl, _, rfl, s.readV_writeV_same x kk, changesOnly_writeV s x _⟩

/-- Settles O8: addition of bytes is addition modulo 256. -/
theorem addImmediateWrapsWithoutFlag : Obligations.AddImmediateWrapsWithoutFlag := fun x kk s =>
  ⟨decode_encode (i := .addImm x kk) rfl, _, rfl, by rw [State.readV_writeV_same, BitVec.toNat_add],
    changesOnly_writeV s x _⟩

/-- Settles O9: the old `V[y]` is read before the write, so `y = x` needs no case of its own. -/
theorem copyRegister : Obligations.CopyRegister := fun x y s =>
  ⟨decode_encode (i := .ldReg x y) rfl, _, rfl, s.readV_writeV_same x _, changesOnly_writeV s x _⟩

/-- Settles O10: the library's bit of an or, an and, an exclusive or. -/
theorem logicIsBitwiseWithoutFlag : Obligations.LogicIsBitwiseWithoutFlag := fun x y s =>
  ⟨decode_encode (i := .orReg x y) rfl, decode_encode (i := .andReg x y) rfl, decode_encode (i := .xorReg x y) rfl,
    ⟨_, rfl, changesOnly_writeV s x _, fun b => by rw [State.readV_writeV_same, BitVec.getLsbD_or]⟩,
    ⟨_, rfl, changesOnly_writeV s x _, fun b => by rw [State.readV_writeV_same, BitVec.getLsbD_and]⟩,
    _, rfl, changesOnly_writeV s x _, fun b => by rw [State.readV_writeV_same, BitVec.getLsbD_xor]⟩

/-- Settles O11: `+` on bytes is the sum modulo 256, and the carry is taken from the exact sum of the old operands. -/
theorem addSetsCarry : Obligations.AddSetsCarry := fun x y s =>
  ⟨decode_encode (i := .addReg x y) rfl, _, rfl,
    writeWithFlag_leaves s x BitVec.toNat (carryFlag_toNat _ _) (BitVec.toNat_add _ _)⟩

/-- Settles O12: the wrapped difference is the remainder on integers. -/
theorem subtractSetsNoBorrow : Obligations.SubtractSetsNoBorrow := fun x y s =>
  ⟨decode_encode (i := .subReg x y) rfl, _, rfl,
    writeWithFlag_leaves s x (fun r => (r.toNat : Int)) (noBorrowFlag_toNat _ _) (byte_sub_toNat _ _)⟩

/-- Settles O13: the decoder keeps `y`, and the effect does not mention it. -/
theorem shiftRightSetsLowBit : Obligations.ShiftRightSetsLowBit := fun x y s =>
  ⟨decode_encode (i := .shr x y) rfl, _, rfl,
    writeWithFlag_leaves s x BitVec.toNat (lowBitFlag_toNat _) (BitVec.toNat_ushiftRight _ _)⟩

/-- Settles O14: as for `8xy5`, the operands exchanged. -/
theorem reverseSubtractSetsNoBorrow : Obligations.ReverseSubtractSetsNoBorrow := fun x y s =>
  ⟨decode_encode (i := .subnReg x y) rfl, _, rfl,
    writeWithFlag_leaves s x (fun r => (r.toNat : Int)) (noBorrowFlag_toNat _ _) (byte_sub_toNat _ _)⟩

/-- Settles O15: the decoder keeps `y`, and the effect does not mention it. -/
theorem shiftLeftSetsHighBit : Obligations.ShiftLeftSetsHighBit := fun x y s =>
  ⟨decode_encode (i := .shl x y) rfl, _, rfl,
    writeWithFlag_leaves s x BitVec.toNat (highBitFlag_toNat _) (byte_shiftLeft_one_toNat _)⟩

/-- Settles O16: the byte is read at the old position, and the position moves on whatever `kk` is. -/
theorem randomMasksOneDraw : Obligations.RandomMasksOneDraw := fun x kk s =>
  ⟨decode_encode (i := .rnd x kk) rfl, _, rfl,
    fun b => by rw [State.readV_writeV_same, BitVec.getLsbD_and, State.randByte], rfl, changesOnly_rnd s x _⟩

end Sys2Proof.Machine
end

section
/-! The index register and memory (43_index_memory.md). -/

namespace Sys2Proof.Machine

/-! ## Where large values of `I` come from (R140) -/

/-- Only the three index instructions have `I` in their row of the write table (10_state.md R23). -/
theorem writeSet_not_index {i : Instr} (hload : ∀ nnn, i ≠ .ldI nnn) (hadd : ∀ x, i ≠ .addIVx x)
    (hglyph : ∀ x, i ≠ .ldFVx x) (s : State) : ¬ (writeSet i s).index := by
  cases i with
  | ldI nnn => exact absurd rfl (hload nnn)
  | addIVx x => exact absurd rfl (hadd x)
  | ldFVx x => exact absurd rfl (hglyph x)
  | ret | call | ldVxK => rw [writeSet]; split <;> exact id
  | _ => exact id

theorem target12_le (nnn : Imm12) : (target12 nnn).toNat ≤ 0x0FFF := by
  rw [target12_toNat]
  exact Nat.le_of_lt_succ nnn.isLt

/-- The last glyph starts at 75. -/
theorem glyphAddress_le (b : Byte) : (glyphAddress b).toNat ≤ 75 := by
  rw [glyphAddress_toNat]
  omega

/-- Every instruction but `Fx1E` keeps `I` at most `0x0FFF`: `Annn` has 12 bits, a glyph lies in the font region, and
no other instruction writes `I`. -/
theorem exec_index_le {i : Instr} {s t : State} (hi : ∀ x, i ≠ .addIVx x) (h : exec i s = .next t)
    (hs : s.index.toNat ≤ 0x0FFF) : t.index.toNat ≤ 0x0FFF := by
  cases i with
  | ldI nnn => cases h; exact target12_le nnn
  | ldFVx x => cases h; exact (glyphAddress_le _).trans (by decide)
  | addIVx x => exact absurd rfl (hi x)
  | _ =>
    rw [← (exec_changesOnly h).index (writeSet_not_index (by nofun) (by nofun) (by nofun) s)]
    exact hs

/-! ## The decimal digits (R143) -/

theorem bcdDigits_length (b : Byte) : (bcdDigits b).length = 3 := rfl

/-- The digits are below 10, so each fits its byte. -/
theorem bcdDigits_toNat (b : Byte) :
    (bcdDigits b).map BitVec.toNat = [b.toNat / 100, b.toNat / 10 % 10, b.toNat % 10] := by
  have := b.isLt
  simp only [bcdDigits, List.map_cons, List.map_nil, BitVec.toNat_ofNat, List.cons.injEq, and_true]
  omega

/-- After `Fx33`, address `I + k` holds digit `k`, the hundreds first. -/
theorem read_execLdBVx {x : Reg} {s t : State} (h : exec (.ldBVx x) s = .next t) {k : Nat} (hk : k < 3) :
    (Memory.read t.mem (s.index.toNat + k)).toNat =
      [(s.readV x).toNat / 100, (s.readV x).toNat / 10 % 10, (s.readV x).toNat % 10][k] := by
  cases h
  have hlen := bcdDigits_length (s.readV x)
  rw [State.read_writeAtIndex_same _ _ k (hlen.trans_le (by decide)) (hk.trans_eq hlen.symm)]
  simp only [← bcdDigits_toNat, List.getElem_map]

/-! ## The statements -/

/-- Settles O18: the immediate has 12 bits, and every instruction but `Fx1E` keeps the bound. -/
theorem loadIndex : Obligations.LoadIndex := by
  refine ⟨fun nnn s => ⟨decode_encode (i := .ldI nnn) rfl, _, rfl, target12_toNat nnn, target12_le nnn,
    changesOnly_setIndex s _⟩, fun i s t h hs ht => ?_⟩
  by_contra hi
  exact absurd (exec_index_le (not_exists.1 hi) h hs) ht.not_ge

/-- Settles O21: the three digits are stored as a block at `I`. -/
theorem storesDecimalDigits : Obligations.StoresDecimalDigits := fun x s =>
  ⟨decode_encode (i := .ldBVx x) rfl, _, rfl, read_execLdBVx rfl (k := 0) (by decide),
    read_execLdBVx rfl (k := 1) (by decide), read_execLdBVx rfl (k := 2) (by decide),
    changesOnly_writeAtIndex s _ rfl⟩

/-- Settles O22: the first `x + 1` registers are stored as a block at `I`, too short to wrap onto itself. -/
theorem storesRegisterBlock : Obligations.StoresRegisterBlock := fun x s =>
  ⟨decode_encode (i := .ldMemVx x) rfl, _, rfl, fun _ hr => read_execLdMemVx rfl hr,
    changesOnly_writeAtIndex s _ (s.regsUpTo_length x)⟩

/-- Settles O23: every register of the block is read from the old memory. -/
theorem loadsRegisterBlock : Obligations.LoadsRegisterBlock := fun x s =>
  ⟨decode_encode (i := .ldVxMem x) rfl, _, rfl, fun r hr => by
    rw [State.readV_loadedRegs, if_pos hr, State.readAtIndex], changesOnly_loadedRegs s x⟩

/-- Settles O19: addition of words is addition modulo 65536. -/
theorem addIndexWrapsWithoutFlag : Obligations.AddIndexWrapsWithoutFlag := fun x s =>
  ⟨decode_encode (i := .addIVx x) rfl, _, rfl, by rw [State.setIndex_index, BitVec.toNat_add, zext16_toNat],
    changesOnly_setIndex s _⟩

/-- Settles O20: the largest address, 75, fits in 16 bits. -/
theorem fontAddressOfLowNibble : Obligations.FontAddressOfLowNibble := fun x s =>
  ⟨decode_encode (i := .ldFVx x) rfl, _, rfl, glyphAddress_toNat _, changesOnly_setIndex s _⟩

end Sys2Proof.Machine
end

section
/-! Framebuffer clear and sprite draw (44_display.md). -/

namespace Sys2Proof.Machine

/-! ## The flag a draw writes (R151) -/

theorem flagByte_eq_one_iff {c : Bool} : flagByte c = 1#8 ↔ c = true := by cases c <;> decide

theorem flagByte_eq_zero_iff {c : Bool} : flagByte c = 0#8 ↔ ¬ c = true := by cases c <;> decide

/-! ## What a draw does, told by the cells the sprite lands on (R151) -/

/-- The loop of `Dxyn` flips the cells the sprite lands on, each once. -/
theorem drawRows_drawn_spriteHits (s : State) (x y : Reg) (n : Nibble) :
    Drawn (spriteHits s x y n.toNat) (s.fb, false)
      (drawRows (s.readV x).toNat (s.readV y).toNat s.readAtIndex 0 n.toNat (s.fb, false)) := by
  have h := drawRows_drawn (s.readV x).toNat (s.readV y).toNat s.readAtIndex n.toNat 0
    ((Nat.zero_add _).trans_le n.isLt.le) (s.fb, false)
  simp only [Nat.zero_le, Nat.zero_add, true_and] at h
  exact h

section
variable {x y : Reg} {n : Nibble} {s t : State} (h : exec (.drw x y n) s = .next t)
include h

theorem exec_drw_cell (c : Nat) : t.cell c = true ↔ ¬ (s.cell c = true ↔ spriteHits s x y n.toNat c) := by
  cases h
  exact (drawRows_drawn_spriteHits s x y n).cell c

theorem exec_drw_cell_of_hit {c : Nat} (hc : spriteHits s x y n.toNat c) : t.cell c = !s.cell c := by
  rw [Bool.eq_iff_iff, exec_drw_cell h]
  simp [hc]

theorem exec_drw_cell_of_not_hit {c : Nat} (hc : ¬ spriteHits s x y n.toNat c) : t.cell c = s.cell c := by
  rw [Bool.eq_iff_iff, exec_drw_cell h]
  simp [hc]

/-- `VF` is the flag of the collision, also for `x` or `y` 15: it is the last write. -/
theorem exec_drw_vf :
    ∃ b, t.readV regVF = flagByte b ∧ (b = true ↔ ∃ c, spriteHits s x y n.toNat c ∧ s.cell c = true) := by
  cases h
  exact ⟨_, State.readV_writeV_same _ _ _,
    (drawRows_drawn_spriteHits s x y n).coll.trans (or_iff_right Bool.false_ne_true)⟩

theorem exec_drw_vf_one_iff :
    t.readV regVF = 1#8 ↔ ∃ c, spriteHits s x y n.toNat c ∧ s.cell c = true := by
  obtain ⟨b, hvf, hb⟩ := exec_drw_vf h
  rw [hvf, flagByte_eq_one_iff, hb]

theorem exec_drw_vf_zero_iff :
    t.readV regVF = 0#8 ↔ ¬ ∃ c, spriteHits s x y n.toNat c ∧ s.cell c = true := by
  obtain ⟨b, hvf, hb⟩ := exec_drw_vf h
  rw [hvf, flagByte_eq_zero_iff, hb]

/-- A draw changes neither `I` nor memory, so the same draw at the same coordinates lands on the same cells. -/
theorem spriteHits_after_drw (hx : t.readV x = s.readV x) (hy : t.readV y = s.readV y) :
    spriteHits t x y n.toNat = spriteHits s x y n.toNat := by
  have hbit : spriteBit t = spriteBit s := by cases h; rfl
  funext c
  simp only [spriteHits, hbit, hx, hy]

end

/-! ## The target of a sprite pixel (R152) -/

theorem targetCell_eq (vx vy row col : Nat) : targetCell vx vy row col = ((vx + col) + (vy + row) * 64) % 2048 := rfl

theorem targetCell_row_wraps (vx vy row col : Nat) :
    targetCell vx vy row col = ((vx + col) + (vy + row) % 32 * 64) % 2048 := by
  rw [targetCell_eq]
  omega

theorem targetCell_column (vx vy row col : Nat) : targetCell vx vy row col % 64 = (vx + col) % 64 := by
  rw [targetCell_eq, Nat.mod_mod_of_dvd _ (by decide), Nat.add_mul_mod_self_right]

theorem targetCell_row (vx vy row col : Nat) :
    targetCell vx vy row col / 64 = (vy + row + (vx + col) / 64) % 32 := by
  rw [targetCell_eq, Nat.mod_mul_right_div_self _ 64 32, Nat.add_mul_div_right _ _ (by decide), Nat.add_comm]

/-! ## The statements -/

/-- Settles O27: the loop's spec gives the cells and the flag, the write table the frame. -/
theorem drawFlipsSpriteCells : Obligations.DrawFlipsSpriteCells := by
  refine fun x y n s => ⟨decode_encode (i := .drw x y n) rfl, ?_⟩
  obtain ⟨t, h⟩ := exec_completes (.drw x y n) s
  have hframe := exec_changesOnly h
  have hdraw : t.draw = true := by cases h; rfl
  exact ⟨t, h, exec_drw_cell h, (exec_drw_vf_one_iff h).2, (exec_drw_vf_zero_iff h).2, hdraw, hframe⟩

/-- Settles O29: both draws land on the same cells, so each of these is flipped twice and no other is flipped, and the
second draw finds there the inverse of what the first one found. -/
theorem drawingTwiceRestores : Obligations.DrawingTwiceRestores := by
  intro x y n s t u hst hx hy htu
  have hhits := spriteHits_after_drw hst hx hy
  have hvf : u.readV regVF = 1#8 ↔ ∃ c, spriteHits s x y n.toNat c ∧ s.cell c = false := by
    rw [exec_drw_vf_one_iff htu, hhits]
    refine exists_congr fun c => and_congr_right fun hc => ?_
    rw [exec_drw_cell_of_hit hst hc, Bool.not_eq_true']
  refine ⟨picture_ext fun c _ => ?_, hvf, fun hnone ⟨c, hc⟩ => hvf.2 ⟨c, hc, ?_⟩⟩
  · show u.cell c = s.cell c
    by_cases hc : spriteHits s x y n.toNat c
    · rw [exec_drw_cell_of_hit htu (hhits ▸ hc), exec_drw_cell_of_hit hst hc, Bool.not_not]
    · rw [exec_drw_cell_of_not_hit htu (hhits ▸ hc), exec_drw_cell_of_not_hit hst hc]
  · exact Bool.eq_false_iff.2 fun hset => (exec_drw_vf_zero_iff hst).1 hnone ⟨c, hc, hset⟩

/-- Settles O30: the cells that held 1 and are flipped are those that go from 1 to 0. -/
theorem collisionMeansErasedCell : Obligations.CollisionMeansErasedCell := by
  intro x y n s t h
  refine (exec_drw_vf_one_iff h).trans (exists_congr fun c => ?_)
  by_cases hc : spriteHits s x y n.toNat c
  · simp [exec_drw_cell_of_hit h hc, hc]
  · simp [exec_drw_cell_of_not_hit h hc, hc]

/-- Settles O26: the blank picture is shown whatever the old one was. -/
theorem clearBlanksEveryCell : Obligations.ClearBlanksEveryCell :=
  ⟨decode_encode (i := .cls) rfl, fun s => ⟨_, rfl, pictureCell_blank, rfl, changesOnly_show s _⟩⟩

/-- Settles O28: the forms hold for all coordinates, the law on distinct pixels covers the rows up to 15. -/
theorem targetCellFormulas : Obligations.TargetCellFormulas :=
  ⟨fun vx vy row col => ⟨targetCell_eq .., targetCell_row_wraps .., targetCell_column .., targetCell_row ..⟩,
    fun _ _ _ _ _ _ hr hr' hc hc' h => targetCell_inj (hr.trans (by decide)) (hr'.trans (by decide)) hc hc' h,
    by decide⟩

end Sys2Proof.Machine
end

section
/-! Keypad and timer instructions (45_keypad_timers.md). -/

namespace Sys2Proof.Machine

/-! ## What the scan finds, told by the levels of the sixteen keys (R162) -/

section
variable {s : State}

theorem State.firstKey_eq_none (hup : ∀ k : Fin 16, s.keyDown k.val = false) : s.firstKey = none := by
  refine List.find?_eq_none.2 fun k hk => ?_
  rw [hup ⟨k, List.mem_range.1 hk⟩]
  exact Bool.false_ne_true

theorem State.firstKey_eq_some {k : Fin 16} (hk : s.keyDown k.val = true)
    (hleast : ∀ j : Fin 16, j < k → s.keyDown j.val = false) : s.firstKey = some k.val := by
  refine List.find?_range_eq_some.2 ⟨hk, List.mem_range.2 k.isLt, fun j hj => ?_⟩
  rw [hleast ⟨j, hj.trans k.isLt⟩ hj]
  rfl

/-! ## What the key wait does at each answer of the scan (R162) -/

theorem exec_ldVxK_wait (x : Reg) (h : s.firstKey = none) : exec (.ldVxK x) s = .next s.stepBack := by
  show execLdVxK x s = _
  rw [execLdVxK, h]

theorem exec_ldVxK_take (x : Reg) {k : Nat} (h : s.firstKey = some k) :
    exec (.ldVxK x) s = .next (s.writeV x (BitVec.ofNat 8 k)) := by
  show execLdVxK x s = _
  rw [execLdVxK, h]

end

theorem stepBack_pc_toNat (s : State) : s.stepBack.pc.toNat = (s.pc.toNat + 65534) % 65536 := by
  rw [State.stepBack_pc, BitVec.toNat_sub, Nat.add_comm]
  rfl

/-! ## The statements -/

/-- Settles O32: the scan's two answers, and a key number fits in a register. -/
theorem keyWaitTakesLeastKey : Obligations.KeyWaitTakesLeastKey := by
  refine fun x s => ⟨decode_encode (i := .ldVxK x) rfl, ?_⟩
  obtain ⟨t, h⟩ := exec_completes (.ldVxK x) s
  refine ⟨t, h, fun hup => ?_, fun k hk hleast => ?_⟩
  · cases h.symm.trans (exec_ldVxK_wait x (State.firstKey_eq_none hup))
    exact ⟨stepBack_pc_toNat s, changesOnly_setPC s _⟩
  · cases h.symm.trans (exec_ldVxK_take x (State.firstKey_eq_some hk hleast))
    refine ⟨?_, changesOnly_writeV s x _⟩
    rw [State.readV_writeV_same, BitVec.toNat_ofNat]
    exact Nat.mod_eq_of_lt (k.isLt.trans (by decide))

/-- Settles O31: each effect is a `skipIf` on the level of one key, or on its negation. -/
theorem skipOnKey : Obligations.SkipOnKey := fun x s =>
  ⟨decode_encode (i := .skp x) rfl, decode_encode (i := .sknp x) rfl,
    ⟨_, rfl, changesOnly_skipIf s _, skipIf_pc_toNat s (by rw [lowNibble_eq])⟩,
    _, rfl, changesOnly_skipIf s _, skipIf_pc_toNat s (by rw [lowNibble_eq, Bool.not_eq_true'])⟩

/-- Settles O33: the write leaves the timer's value. -/
theorem readsDelayTimer : Obligations.ReadsDelayTimer := fun x s =>
  ⟨decode_encode (i := .ldVxDT x) rfl, _, rfl, s.readV_writeV_same x _, changesOnly_writeV s x _⟩

/-- Settles O34: the timer's old value is not looked at. -/
theorem setsTimers : Obligations.SetsTimers := fun x s =>
  ⟨decode_encode (i := .ldDTVx x) rfl, decode_encode (i := .ldSTVx x) rfl,
    ⟨_, rfl, rfl, changesOnly_setDT s _⟩, _, rfl, rfl, changesOnly_setST s _⟩

end Sys2Proof.Machine
end

section
/-! Stack faults, and the host's side of the machine: timers, keys, display calls and runs (60_exceptions.md). -/

namespace Sys2Proof.Machine

/-! ## Memory stays in canonical form along every run (R177, log 8) -/

theorem State.powerOn_inv (font : Vector Byte 80) : (State.powerOn font).Inv :=
  Memory.wf_writeBytes font.toList 0 (m := []) rfl

theorem State.Inv.resetCall {s : State} (hs : s.Inv) : s.resetCall.Inv := Memory.wf_clearAboveFont hs

theorem State.Inv.loadImage {s : State} (hs : s.Inv) (bytes : List Byte) : (s.loadImage bytes).Inv :=
  Memory.wf_writeBytes bytes Config.progBase hs

/-- A step, a reset and a load keep the canonical form; no other transaction touches memory. -/
theorem transact_keeps_inv {c : Transaction} {s u : State} {r : Response} (hs : s.Inv)
    (h : transact c s = .next (u, r)) : u.Inv := by
  rcases transact_cases h with
    ⟨-, hstep⟩ | ⟨-, rfl⟩ | ⟨bytes, -, -, rfl⟩ | ⟨-, rfl⟩ | ⟨_, _, -, rfl⟩ | ⟨-, rfl⟩ | rfl
  · exact stepKeepsCanonicalMemory s u hs hstep
  · exact hs.resetCall
  · exact hs.loadImage bytes
  all_goals exact hs

/-- Settles O58: power-on lists its font in canonical form, and every transaction keeps the form. -/
theorem reachableMemoryIsCanonical : Obligations.ReachableMemoryIsCanonical := by
  intro s hs
  induction hs with
  | powerOn font => exact State.powerOn_inv font
  | move s u c r _ hmove ih => exact transact_keeps_inv ih hmove

/-! ## Stack faults (R170 to R172) -/

/-- Which fault is pending: it depends on the stack depth under `2nnn` and `00EE`, and no other instruction has one. -/
theorem State.pendingFault_cases (s : State) :
    (∃ nnn, decode s.fetch = .call nnn ∧
      s.pendingFault = if s.sp.val = 16 then some .stackOverflow else none) ∨
    (decode s.fetch = .ret ∧ s.pendingFault = if s.sp.val = 0 then some .stackUnderflow else none) ∨
    ((∀ nnn, decode s.fetch ≠ .call nnn) ∧ decode s.fetch ≠ .ret ∧ s.pendingFault = none) := by
  unfold State.pendingFault
  split
  · next nnn hi => exact .inl ⟨nnn, hi, rfl⟩
  · next hi => exact .inr (.inl ⟨hi, rfl⟩)
  · next hcall hret => exact .inr (.inr ⟨hcall, hret, rfl⟩)

/-- A step that raises a fault records it, moves `PC` on and does nothing else. -/
theorem step_of_pendingFault {s : State} {f : Fault} (h : s.pendingFault = some f) :
    step s = .next (s.advance.raise f) := by
  rcases s.pendingFault_cases with ⟨nnn, hi, hp⟩ | ⟨hi, hp⟩ | ⟨-, -, hp⟩ <;> rw [hp] at h
  · split at h <;> cases h
    next hfull => rw [step, hi, exec_call_full (s := s.advance) nnn hfull]
  · split at h <;> cases h
    next hempty => rw [step, hi, exec_ret_empty (s := s.advance) hempty]
  · cases h

theorem changesOnly_advance_raise (s : State) (f : Fault) {b : Fin 2}
    (hb : ∀ c : Fin 2, c ≠ b → (errBit f).getLsbD c.val = false) :
    ChangesOnly { err := fun c => c = b, pc := True } s (s.advance.raise f) :=
  { AgreeOn.refl _ s with
    pc := fun h => absurd trivial h
    err := (changesOnly_raise s f hb).err }

/-- What a step that raises the fault recorded in bit `b` of `ERR` leaves. -/
theorem step_records_fault {s t : State} {f : Fault} {b : Fin 2} (hset : (errBit f).getLsbD b.val = true)
    (hother : ∀ c : Fin 2, c ≠ b → (errBit f).getLsbD c.val = false) (h : step s = .next t)
    (hf : s.pendingFault = some f) :
    t.err.getLsbD b.val = true ∧ t.pc = s.pc + 2#16 ∧ ChangesOnly { err := fun c => c = b, pc := True } s t := by
  cases h.symm.trans (step_of_pendingFault hf)
  refine ⟨?_, rfl, changesOnly_advance_raise s f hother⟩
  rw [State.raise_err_bit, hset, Bool.or_true]

/-- `ERR` is in an instruction's row of the write table only when a fault is pending. -/
theorem writeSet_not_err_of_no_pendingFault {s : State} (h : s.pendingFault = none) (b : Fin 2) :
    ¬ (writeSet (decode s.fetch) s.advance).err b := by
  rcases s.pendingFault_cases with ⟨nnn, hi, hp⟩ | ⟨hi, hp⟩ | ⟨hcall, hret, -⟩
  · rw [hp] at h
    split at h <;> cases h
    next hroom =>
      rw [hi, writeSet, State.advance_sp, if_neg hroom]
      exact id
  · rw [hp] at h
    split at h <;> cases h
    next hlive =>
      rw [hi, writeSet, State.advance_sp, if_neg hlive]
      exact id
  · exact writeSet_not_err hret hcall _ b

/-- Settles O46: each fault has its own bit of `ERR`, and without a fault `ERR` is not in the step's write set. -/
theorem faultsAreRecordedAndSticky : Obligations.FaultsAreRecordedAndSticky := fun _ _ h =>
  ⟨fun hnone => (exec_changesOnly h).err_eq (writeSet_not_err_of_no_pendingFault hnone),
    step_records_fault (b := 0) (by decide) (by decide) h,
    step_records_fault (b := 1) (by decide) (by decide) h⟩

/-! ## Timers (R180) -/

theorem countDown_toNat (b : Byte) : (countDown b).toNat = b.toNat - 1 := by
  unfold countDown
  split <;> bv_omega

theorem countDown_iterate_toNat (n : Nat) (b : Byte) : (countDown^[n] b).toNat = b.toNat - n := by
  induction n generalizing b with
  | zero => rfl
  | succ n ih => rw [Function.iterate_succ_apply, ih, countDown_toNat, Nat.sub_sub, Nat.add_comm 1 n]

theorem runTransactions_ticks (n : Nat) (s : State) :
    runTransactions (List.replicate n .tickTimers) s =
      .next { s with dt := countDown^[n] s.dt, st := countDown^[n] s.st } := by
  induction n generalizing s with
  | zero => rfl
  | succ n ih => exact ih s.tickTimers

theorem changesOnly_timers (s : State) (d e : Byte) :
    ChangesOnly { dt := True, st := True } s { s with dt := d, st := e } :=
  { AgreeOn.refl _ s with dt := fun h => absurd trivial h, st := fun h => absurd trivial h }

/-- Only `Fx15` has `DT` in its row of the write table, and only `Fx18` has `ST` (10_state.md R23). -/
theorem writeSet_timers (i : Instr) (s : State) :
    ((writeSet i s).dt → ∃ x, i = .ldDTVx x) ∧ ((writeSet i s).st → ∃ x, i = .ldSTVx x) := by
  cases i with
  | ldDTVx x => exact ⟨fun _ => ⟨x, rfl⟩, False.elim⟩
  | ldSTVx x => exact ⟨False.elim, fun _ => ⟨x, rfl⟩⟩
  | ret | call | ldVxK => rw [writeSet]; split <;> exact ⟨False.elim, False.elim⟩
  | _ => exact ⟨False.elim, False.elim⟩

/-- A step moves `DT` only by `Fx15` and `ST` only by `Fx18`. -/
theorem step_timers {s t : State} (h : step s = .next t) :
    ((∀ x, decode s.fetch ≠ .ldDTVx x) → t.dt = s.dt) ∧ ((∀ x, decode s.fetch ≠ .ldSTVx x) → t.st = s.st) := by
  have hframe := exec_changesOnly h
  obtain ⟨hdt, hst⟩ := writeSet_timers (decode s.fetch) s.advance
  exact ⟨fun hi => (hframe.dt fun hw => not_exists.2 hi (hdt hw)).symm,
    fun hi => (hframe.st fun hw => not_exists.2 hi (hst hw)).symm⟩

theorem transact_timers {c : Transaction} {s u : State} {r : Response} (htick : c ≠ .tickTimers) (hreset : c ≠ .reset)
    (hstep : c ≠ .step) (h : transact c s = .next (u, r)) : u.dt = s.dt ∧ u.st = s.st := by
  rcases transact_cases h with
    ⟨hc, -⟩ | ⟨hc, -⟩ | ⟨_, -, -, rfl⟩ | ⟨hc, -⟩ | ⟨_, _, -, rfl⟩ | ⟨-, rfl⟩ | rfl
  · exact absurd hc hstep
  · exact absurd hc hreset
  · exact ⟨rfl, rfl⟩
  · exact absurd hc htick
  all_goals exact ⟨rfl, rfl⟩

/-- Settles O54: `n` ticks count each timer down `n` times; beyond ticks and `reset()` only two rows of the write table
have a timer. -/
theorem ticksCountDownToZero : Obligations.TicksCountDownToZero :=
  ⟨fun n s => ⟨_, runTransactions_ticks n s, countDown_iterate_toNat n s.dt, countDown_iterate_toNat n s.st,
    changesOnly_timers s _ _⟩, fun _ _ => step_timers, fun _ _ _ _ => transact_timers⟩

/-! ## No run stops (R170, R177) -/

/-- A step completes, a call out of range is refused by an answer, and every other call is an update or a query. -/
theorem transact_completes (c : Transaction) (s : State) : ∃ u r, transact c s = .next (u, r) := by
  cases c with
  | step =>
    obtain ⟨u, h⟩ := stepAlwaysCompletes s
    exact ⟨u, .stepped s.pendingFault, by rw [transact, h]⟩
  | loadProgram | setKey | pixel => rw [transact]; split <;> exact ⟨_, _, rfl⟩
  | _ => exact ⟨_, _, rfl⟩

/-- Settles O59: one transaction after the other completes. -/
theorem runsNeverStop : Obligations.RunsNeverStop := by
  intro cs
  induction cs with
  | nil => exact fun s => ⟨s, rfl⟩
  | cons c cs ih =>
    intro s
    obtain ⟨v, r, hv⟩ := transact_completes c s
    obtain ⟨u, hu⟩ := ih v
    exact ⟨u, by rw [runTransactions, hv]; exact hu⟩

/-! ## Keys and display (R174, R181, R182) -/

theorem transact_setKey (s : State) (k : Fin 16) (pressed : Bool) :
    transact (.setKey k pressed) s = .next (s.setKey k pressed, .done) := dif_pos k.isLt

theorem changesOnly_setKey (s : State) (k : Fin 16) (pressed : Bool) :
    ChangesOnly { keys := True } s (s.setKey k pressed) :=
  { AgreeOn.refl _ s with keys := fun h => absurd trivial h }

theorem changesOnly_clearDrawFlag (s : State) : ChangesOnly { draw := True } s s.clearDrawFlag :=
  { AgreeOn.refl _ s with draw := fun h => absurd trivial h }

/-- Settles O55: the key named is set to its level, and an index that names none fails the range check. -/
theorem setKeyStoresLevel : Obligations.SetKeyStoresLevel := by
  refine fun s index pressed => ⟨fun hk => ?_, fun hout => dif_neg (Nat.not_lt.2 hout)⟩
  have hkeys := s.keyDown_setKey ⟨index, hk⟩ pressed
  exact ⟨_, transact_setKey s ⟨index, hk⟩ pressed, (hkeys index).trans (if_pos rfl),
    fun j hj => (hkeys j).trans (if_neg hj), changesOnly_setKey s _ pressed⟩

/-- Settles O56: two of the calls are queries, and a cell is looked up only when its index is in range. -/
theorem displayCalls : Obligations.DisplayCalls := fun s =>
  ⟨rfl, ⟨_, rfl, rfl, changesOnly_clearDrawFlag s⟩, fun _ hc => if_pos hc, fun _ hc => if_neg (Nat.not_lt.2 hc)⟩

end Sys2Proof.Machine
end

section
/-! Reset, program load and the tight loops (70_reset_and_hazards.md). -/

namespace Sys2Proof.Machine

/-! ## Loops that map the state to itself (R204) -/

theorem State.advance_setPC (s : State) (w : Word) : s.advance.setPC w = s.setPC w := rfl

theorem State.setPC_self (s : State) : s.setPC s.pc = s := rfl

theorem State.advance_stepBack (s : State) : s.advance.stepBack = s := by
  rw [State.stepBack, State.advance_setPC, State.advance_pc, BitVec.add_sub_cancel, State.setPC_self]

/-- Settles O47: the jump sets `PC` to what it was, and the key wait takes the step's own advance back. -/
theorem loopsAreFixedPoints : Obligations.LoopsAreFixedPoints := by
  refine ⟨fun s nnn hfetch hpc => ?_, fun s x hfetch hkey => ?_⟩
  · have htarget : target12 nnn = s.pc := BitVec.eq_of_toNat_eq ((target12_toNat nnn).trans hpc.symm)
    calc step s
        = .next (s.advance.setPC (target12 nnn)) := step_of_fetch_encode (i := .jp nnn) rfl hfetch
      _ = .next s := by rw [htarget, State.advance_setPC, State.setPC_self]
  · have hnone : s.advance.firstKey = none := s.advance.firstKey_none_iff.2 hkey
    calc step s
        = exec (.ldVxK x) s.advance := step_of_fetch_encode (i := .ldVxK x) rfl hfetch
      _ = .next s := by rw [exec_ldVxK_wait x hnone, State.advance_stepBack]

/-! ## Program load (R196) -/

/-- The copy reaches the addresses of the image and no other; an image that fits does not wrap onto the font. -/
theorem changesOnly_loadImage (s : State) {bytes : List Byte} (hfits : bytes.length ≤ 3584) :
    ChangesOnly { mem := fun a => 512 ≤ a ∧ a < 512 + bytes.length } s (s.loadImage bytes) :=
  { AgreeOn.refl _ s with
    mem := fun a (hout : ¬ (512 ≤ Memory.wrap a ∧ Memory.wrap a < 512 + bytes.length)) => by
      refine (Memory.read_writeBytes_other bytes s.mem 512 a fun k hk => ?_).symm
      rw [Memory.wrap_of_lt (show 512 + k < 4096 by omega)]
      omega }

/-- Settles O53: an image that fits is copied byte for byte, and a longer one fails the length check. -/
theorem loadProgramContract : Obligations.LoadProgramContract := by
  refine fun s bytes => ⟨fun hfits => ?_, fun hlong => if_neg (Nat.not_le.2 hlong)⟩
  exact ⟨s.loadImage bytes, if_pos hfits,
    fun k hk => Memory.read_writeBytes_same bytes s.mem 512 k (hfits.trans (by decide)) hk,
    changesOnly_loadImage s hfits⟩

/-! ## Power-on with the default font (R190, 20_memory.md R45) -/

/-- The font whose bytes are `fontTable`, as the argument of `State.powerOn` (log 2). -/
def defaultFont : Vector Byte 80 := ⟨fontTable.toArray, rfl⟩

theorem defaultFont_toList : defaultFont.toList = fontTable := rfl

theorem fontByte_eq_defaultFont (a : Fin 80) : fontByte a.val = defaultFont[a] :=
  List.getD_eq_getElem fontTable 0#8 a.isLt

/-- Canonical memories are equal when their bytes are, and an unlisted address reads as the byte this font puts there. -/
theorem powerOn_defaultFont_mem : (State.powerOn defaultFont).mem = [] := by
  refine canonicalMemoryIsItsBytes _ [] (State.powerOn_inv defaultFont) rfl fun a ha => ?_
  rw [Memory.read_nil, Memory.wrap_of_lt ha, Memory.initByte]
  split
  · next hfont => rw [read_powerOn_font defaultFont ⟨a, hfont⟩, ← fontByte_eq_defaultFont]
  · next hfont => exact read_powerOn_aboveFont defaultFont (Nat.not_lt.1 hfont) ha

theorem State.powerOn_eq_reset_with_mem (font : Vector Byte 80) :
    State.powerOn font = { State.reset with mem := (State.powerOn font).mem } := rfl

theorem powerOn_defaultFont : State.powerOn defaultFont = State.reset := by
  rw [State.powerOn_eq_reset_with_mem, powerOn_defaultFont_mem]
  rfl

/-- Settles O51: memory is held over the default font, so power-on with that font lists no byte. -/
theorem resetStateIsPowerOn : Obligations.ResetStateIsPowerOn :=
  ⟨rfl, defaultFont, defaultFont_toList, powerOn_defaultFont.symm⟩

/-! ## A second reset changes nothing (R192) -/

theorem Memory.clearAboveFont_clearAboveFont (m : Memory) :
    Memory.clearAboveFont (Memory.clearAboveFont m) = Memory.clearAboveFont m := by
  simp [Memory.clearAboveFont, List.filter_filter]

/-- Canonical memories are equal when their bytes are, and at power-on the bytes past the font are 0 already. -/
theorem clearAboveFont_powerOn (font : Vector Byte 80) :
    Memory.clearAboveFont (State.powerOn font).mem = (State.powerOn font).mem := by
  have hwf := State.powerOn_inv font
  refine canonicalMemoryIsItsBytes _ _ (Memory.wf_clearAboveFont hwf) hwf fun a ha => ?_
  rw [Memory.read_clearAboveFont, Memory.wrap_of_lt ha]
  split
  · rfl
  · next hfont => exact (read_powerOn_aboveFont font (Nat.not_lt.1 hfont) ha).symm

/-- Settles O52: clearing memory past the font is idempotent, and power-on memory is clear there. -/
theorem resetIsIdempotent : Obligations.ResetIsIdempotent := by
  refine ⟨fun s => ?_, fun font => ?_⟩
  · rw [State.resetCall, State.resetCall_mem, State.resetCall_draws, Memory.clearAboveFont_clearAboveFont]
    rfl
  · rw [State.resetCall, clearAboveFont_powerOn]
    rfl

end Sys2Proof.Machine
end
